-- ==== Sys2Proof/Word.lean ====
section
/-! DEFINITION. The word the block stores: a PHT counter. Every other quantity of the spec is an
unsigned number, bit 0 least significant, of a width that belongs to the instance (R13, R14, R70): it is
a `Nat` here, and its width is a bound on it (`Config.cmdW`, `State.Inv`). -/

namespace Sys2Proof

/-- One entry of the pattern history table, "stored as a 2-bit unsigned binary number equal to the
counter's integer value" (R25). -/
abbrev Counter := BitVec 2

end Sys2Proof
end

