-- ==== Sys2Proof/Config.lean ====
section
/-! DEFINITION. The parameters of one engine instance (R7 to R12, R23). The type admits only legal
values: a configuration outside R7 and R8 "yields no engine" (R9, decision D10; log 1), and an instance
that violates `ADDR_W >= M + 2` "is refused" (93_implementation_defined.md I9; log 3). The model's one
free value stands here too. -/

namespace Sys2Proof

/-- The width of a statistics counter (R11): unbounded naturals, the reference value, or `w` bits. -/
inductive CntWidth where
  | unbounded
  | bits (w : Nat)
  deriving DecidableEq, Repr

/-- "any finite `CNT_W >= 1` is legal" (R11). -/
def CntWidth.legal : CntWidth → Bool
  | .unbounded => true
  | .bits w => decide (1 ≤ w)

/-- The parameters of an instance, with the proofs that they are legal. -/
structure Config where
  /-- `CFG_M`, the PHT address width in bits (R7, R23). -/
  m : Nat
  /-- `CFG_N`, the global-history length in bits (R8, R23). -/
  n : Nat
  /-- `ADDR_W`, the width of the branch-address operand (R10, I9; log 3). -/
  addrW : Nat
  /-- `CNT_W`, the width of each statistics counter (R11). -/
  cntW : CntWidth
  /-- `EXPOSE_SUBOPS`, whether PREDICT and UPDATE are legal commands (R12). -/
  exposeSubops : Bool
  m_pos : 1 ≤ m
  n_le_m : n ≤ m
  addrW_wide : m + 2 ≤ addrW
  cntW_legal : cntW.legal = true
  deriving DecidableEq, Repr

namespace Config

/-- The number of PHT entries, `2^M` (R24). -/
def phtSize (cfg : Config) : Nat := 2 ^ cfg.m

/-- The width of a command word, `CMD_W = 3 + ADDR_W + M` (R70). -/
def cmdW (cfg : Config) : Nat := 3 + cfg.addrW + cfg.m

/-- The instance that `State.reset` stands for. `ADDR_W`, `CNT_W` and `EXPOSE_SUBOPS` are the spec's
defaults (R10, R11, R12); M = 4 and N = 2 are a DESIGN CHOICE (log 2). -/
def default : Config where
  m := 4
  n := 2
  addrW := 32
  cntW := .unbounded
  exposeSubops := false
  m_pos := by decide
  n_le_m := by decide
  addrW_wide := by decide
  cntW_legal := rfl

/-- FREE VALUE: what a command-line spelling that the spec does not settle reads as, an integer or not
(R160, R161 name no grammar; log 16). -/
opaque openInteger : List Char → Option Int

end Config

end Sys2Proof
end

