-- ==== Sys2Proof/Syntax.lean ====
section
/-! DEFINITION. The commands of the block, one constructor per row of spec/opcode_table.json (R79).
A constructor carries exactly the fields its command reads (R75). -/

namespace Sys2Proof

/-- A command with the operands it reads. Addresses and indexes are unsigned numbers (R14, R72, R74). -/
inductive Instr where
  /-- op 00, PROCESS_BRANCH (R130). -/
  | processBranch (addr : Nat) (taken : Bool)
  /-- op 01, RATE_QUERY (R135). -/
  | rateQuery
  /-- op 10, PREDICT (R140). -/
  | predict (addr : Nat)
  /-- op 11, UPDATE (R145). -/
  | update (idx : Nat) (taken : Bool)
  deriving DecidableEq, Repr

end Sys2Proof
end

