-- ==== Sys2Proof/WellFormed.lean ====
section
/-! DEFINITION. When the operands of a command fit the fields of a command word (R72, R74). -/

namespace Sys2Proof

/-- Every operand fits its field: `addr` has `ADDR_W` bits (R72), `idx` has `M` bits (R74). -/
def Instr.wellFormed (cfg : Config) : Instr → Bool
  | .processBranch addr _ => decide (addr < 2 ^ cfg.addrW)
  | .rateQuery => true
  | .predict addr => decide (addr < 2 ^ cfg.addrW)
  | .update idx _ => decide (idx < cfg.phtSize)

end Sys2Proof
end

