-- ==== Sys2Proof/Decode.lean ====
section
/-! DEFINITION. The decoder of command words and, after it, the encoder, both written from the field
table of R70 and the opcode map of R79. -/

namespace Sys2Proof

/-- `v[lo+width-1:lo]`, as an unsigned value; a field of width 0 has value 0 (R13). -/
def bitField (v lo width : Nat) : Nat := v / 2 ^ lo % 2 ^ width

/-- `op = CMD[1:0]` (R71). -/
def opField (w : Nat) : Nat := bitField w 0 2

/-- `taken = CMD[2]`, 1 for taken (R73). -/
def takenField (w : Nat) : Bool := bitField w 2 1 == 1

/-- `addr = CMD[ADDR_W+2:3]` (R72). -/
def addrField (cfg : Config) (w : Nat) : Nat := bitField w 3 cfg.addrW

/-- `idx = CMD[ADDR_W+M+2:ADDR_W+3]` (R74). -/
def idxField (cfg : Config) (w : Nat) : Nat := bitField w (cfg.addrW + 3) cfg.m

/-- Why a number is no command. -/
inductive DecodeError where
  /-- It does not fit in `CMD_W` bits: "there is no other length or format" (R70, R81; log 8). -/
  | notACommandWord
  deriving DecidableEq, Repr

/-- The command a word stands for. "The decoder reads no other bit to choose the command" than `op`
(R71), and every word of `CMD_W` bits has a command; whether ops 10 and 11 are legal is for their
meanings to say (R80; log 9). -/
def decode (cfg : Config) (w : Nat) : Except DecodeError Instr :=
  if w < 2 ^ cfg.cmdW then
    match opField w with
    | 0 => .ok (.processBranch (addrField cfg w) (takenField w))
    | 1 => .ok .rateQuery
    | 2 => .ok (.predict (addrField cfg w))
    | _ => .ok (.update (idxField cfg w) (takenField w))
  else .error .notACommandWord

/-- A command word from its four fields (R70). -/
def assembleFields (cfg : Config) (op : Nat) (taken : Bool) (addr idx : Nat) : Nat :=
  op + 2 ^ 2 * taken.toNat + 2 ^ 3 * addr + 2 ^ (cfg.addrW + 3) * idx

/-- The word of a well-formed command; fields it does not read are 0 (R79, R82). -/
def encode (cfg : Config) : Instr → Nat
  | .processBranch addr taken => assembleFields cfg 0 taken addr 0
  | .rateQuery => assembleFields cfg 1 false 0 0
  | .predict addr => assembleFields cfg 2 false addr 0
  | .update idx taken => assembleFields cfg 3 taken 0 idx

/-- The command the decoder reads, for the instance of `State.reset`, from a word whose low `nbits`
bits are those of `w` and whose other bits are 0 (log 7). -/
def decodeTableWord (nbits w : Nat) : Option Instr :=
  match decode Config.default (w % 2 ^ nbits) with
  | .ok i => some i
  | .error _ => none

end Sys2Proof
end

