-- ==== Sys2Proof/Machine/State.lean ====
section
/-! DEFINITION. The state of one engine instance (R22, R23), the response record (R76), the driver's
input items, and the state after reset (R34 to R36, R200). -/

namespace Sys2Proof.Machine

/-- The `status` field of a response (R181). Codes 10 and 11 are reserved and never produced. -/
inductive Status where
  | ok
  | illegalCmd
  deriving DecidableEq, Repr

/-- A response RSP as a record (R76; log 23). -/
structure Response where
  status : Status
  ovf : Bool
  predTaken : Bool
  mispredict : Bool
  idxOut : Nat
  predCount : Nat
  mispredCount : Nat
  deriving DecidableEq, Repr

/-- One thing the driver can do to the block: apply reset (R200; log 10) or offer a command word (R61). -/
inductive Input where
  | reset
  | command (w : Nat)
  deriving DecidableEq, Repr

/-- Why a run can fault. The block itself raises no fault (R180); a consumer of its responses can. -/
inductive Fault where
  /-- Raised by `Response.unpack`, the consumer's reader, on the reserved status codes 10 and 11 (R181,
  93_implementation_defined.md I5). Safe: the block never produces them. -/
  | reservedStatus
  deriving DecidableEq, Repr

/-- Why a run can be refused. -/
inductive Refusal where
  /-- Raised by `exec` for a command without a meaning. No command of the table is without one. Safe. -/
  | notModelled (mnemonic : String)
  /-- Raised by `step` on an offered number that is no `CMD_W`-bit word (R70, R81; log 8). Safe. -/
  | notACommandWord (w : Nat)
  /-- Raised by the driver model: the line's address is spelled in a way the spec leaves open (R168,
  I13; log 13). Safe. -/
  | hexSpellingOpen (line : Nat)
  /-- Raised by the driver model: the line holds a whitespace character outside R169 (I14; log 14). Safe. -/
  | whitespaceOpen (line : Nat)
  /-- Raised by the driver model: the instance violates `ADDR_W >= M + 2` and "is refused" (I9; log 3).
  Safe. -/
  | narrowAddress (m addrW : Nat)
  deriving DecidableEq, Repr

/-- The storage of the PHT: index and counter pairs, indexes strictly rising, no entry equal to the
reset value 2 that an unlisted index reads as (R34; log 4). -/
abbrev Memory := List (Nat × Counter)

/-- The state of an instance. The first field holds the parameters, which no step writes (R23; log 1);
the next five are the record of R22; the last two are the model's own ports (log 5, log 6). -/
structure State where
  /-- CFG_M, CFG_N and the other parameters. -/
  cfg : Config
  /-- `pht`, the pattern history table (R24). -/
  pht : Memory
  /-- `gbh`, the global history register (R27, R28). -/
  gbh : Nat
  /-- `predictions` (R30). -/
  predictions : Nat
  /-- `mispredictions` (R30). -/
  mispredictions : Nat
  /-- `ovf`, the sticky saturation flag (R32). -/
  ovf : Bool
  /-- What the driver has offered and the block has not taken, oldest first (R61, R201, R210). -/
  inputs : List Input
  /-- The response of the step just taken (R16, R76). -/
  rsp : Option Response
  deriving DecidableEq, Repr

/-- The state of a freshly constructed instance: every PHT entry 2, everything else 0 (R34 to R36,
R200); nothing offered, no response yet (log 5, log 6). -/
def State.resetOf (cfg : Config) : State where
  cfg := cfg
  pht := []
  gbh := 0
  predictions := 0
  mispredictions := 0
  ovf := false
  inputs := []
  rsp := none

/-- The machine right after reset, for the instance `Config.default` (log 2). -/
def State.reset : State := State.resetOf Config.default

end Sys2Proof.Machine
end

