-- ==== Sys2Proof/Machine/Ops.lean ====
section
/-! DEFINITION. The named operations on the state: PHT storage, the history register, the response
port, the driver's port, the illegal-command answer and reset. -/

namespace Sys2Proof.Machine

/-- What an unlisted PHT entry reads as: the reset value 2, "weakly-taken" (R25, R34). -/
def Memory.unlisted : Counter := 2

/-- The counter at index `i`. -/
def Memory.read : Memory → Nat → Counter
  | [], _ => Memory.unlisted
  | (k, c) :: rest, i => if i = k then c else Memory.read rest i

/-- Set the counter at index `i`; a counter equal to the unlisted value leaves no entry. -/
def Memory.write : Memory → Nat → Counter → Memory
  | [], i, v => if v = Memory.unlisted then [] else [(i, v)]
  | (k, c) :: rest, i, v =>
    if i < k then
      if v = Memory.unlisted then (k, c) :: rest else (i, v) :: (k, c) :: rest
    else if i = k then
      if v = Memory.unlisted then rest else (i, v) :: rest
    else (k, c) :: Memory.write rest i v

/-- The canonical form of a table of `size` entries. -/
abbrev Memory.wf (size : Nat) (mem : Memory) : Prop :=
  mem.Pairwise (fun a b => a.1 < b.1) ∧ ∀ e ∈ mem, e.1 < size ∧ e.2 ≠ Memory.unlisted

/-- `PhtRead(i)` (R52). -/
def State.phtRead (s : State) (i : Nat) : Counter := s.pht.read i

/-- `PhtWrite(i, v)` (R52). -/
def State.phtWrite (s : State) (i : Nat) (v : Counter) : State := { s with pht := s.pht.write i v }

/-- A read of the GBH; it yields 0 when N = 0 (R28). -/
def State.gbhRead (s : State) : Nat := if s.cfg.n = 0 then 0 else s.gbh

/-- A write of the GBH; there is no storage to write when N = 0 (R28; log 11). -/
def State.gbhWrite (s : State) (v : Nat) : State := if s.cfg.n = 0 then s else { s with gbh := v }

/-- The next value of a saturating counter: `min(3, c + 1)` or `max(0, c - 1)`, the latter computed as
a signed integer (R110). -/
def counterNext (c : Counter) (taken : Bool) : Counter :=
  if taken then BitVec.ofNat 2 (min 3 (c.toNat + 1))
  else BitVec.ofInt 2 (max 0 ((c.toNat : Int) - 1))

/-- `CounterUpdate(index, taken)` (R110). -/
def State.counterUpdate (s : State) (i : Nat) (taken : Bool) : State :=
  s.phtWrite i (counterNext (s.phtRead i) taken)

/-- The next value of an N-bit history: with N = 0 there is none and nothing changes; otherwise the
oldest outcome is shifted out at bit 0 and the new one set at bit N-1 (R115, conflict C1). -/
def historyNext (n g : Nat) (taken : Bool) : Nat :=
  if n = 0 then g
  else if taken then (g >>> 1) ||| (1 <<< (n - 1))
  else g >>> 1

/-- `HistoryUpdate(taken)` (R115). -/
def State.historyUpdate (s : State) (taken : Bool) : State :=
  s.gbhWrite (historyNext s.cfg.n s.gbhRead taken)

/-- `Update(index, taken)`, the source's `update` (R119). -/
def State.update (s : State) (i : Nat) (taken : Bool) : State :=
  (s.counterUpdate i taken).historyUpdate taken

/-- A response that names no field but `ovf`: the status is OK and every other field is 0 (R78). -/
def Response.blank (ovf : Bool) : Response where
  status := .ok
  ovf := ovf
  predTaken := false
  mispredict := false
  idxOut := 0
  predCount := 0
  mispredCount := 0

/-- The ILLEGAL_CMD response: every field but `status` and `ovf` is 0 (R78, R182). -/
def Response.illegal (ovf : Bool) : Response where
  status := .illegalCmd
  ovf := ovf
  predTaken := false
  mispredict := false
  idxOut := 0
  predCount := 0
  mispredCount := 0

/-- A response that names the direction, the comparison and the index; the counts are 0 (R78). -/
def Response.direction (ovf predTaken mispredict : Bool) (idxOut : Nat) : Response where
  status := .ok
  ovf := ovf
  predTaken := predTaken
  mispredict := mispredict
  idxOut := idxOut
  predCount := 0
  mispredCount := 0

/-- A response that names the two counts; the other fields are 0 (R78). -/
def Response.counts (ovf : Bool) (predCount mispredCount : Nat) : Response where
  status := .ok
  ovf := ovf
  predTaken := false
  mispredict := false
  idxOut := 0
  predCount := predCount
  mispredCount := mispredCount

/-- `respond(...)`: the command's response, written anew (R15, R37). -/
def State.respond (s : State) (r : Response) : State := { s with rsp := some r }

/-- The block's one report of an error, shared by every illegal command: no state changes, the answer
is ILLEGAL_CMD with the unchanged `ovf` and every other field 0 (R182). No trap is entered and there
is nothing to return from (R180, R188). -/
def State.answerIllegal (s : State) : State := s.respond (Response.illegal s.ovf)

/-- Reset: every field of R22 at its reset value, the parameters unchanged (R200); held items stay
held (R201; log 10). -/
def State.applyReset (s : State) : State := { State.resetOf s.cfg with inputs := s.inputs }

/-- The driver offers an item: it waits behind every item already held (R61, R210). -/
def State.offer (s : State) (input : Input) : State := { s with inputs := s.inputs ++ [input] }

/-- The block takes the oldest held item. -/
def State.accept (s : State) : State := { s with inputs := s.inputs.tail }

/-- A step with nothing offered: the block "holds its state unchanged" (R195); there is no response. -/
def State.idle (s : State) : State := { s with rsp := none }

end Sys2Proof.Machine
end

