-- ==== Sys2Proof/Machine/Operands.lean ====
section
/-! DEFINITION. The operand form of the block, the branch address, and the index computed from it:
branch_index_xor_unit (R100). -/

namespace Sys2Proof.Machine

/-- `pc_bits = (addr >> 2) mod 2^M` (R100, steps 1 and 2). -/
def pcBits (m addr : Nat) : Nat := (addr >>> 2) % 2 ^ m

/-- `shifted_history` (R100, step 3). -/
def State.shiftedHistory (s : State) : Nat :=
  if s.cfg.n = 0 then 0 else s.gbhRead <<< (s.cfg.m - s.cfg.n)

/-- `Index(addr)` (R100, step 4). -/
def State.index (s : State) (addr : Nat) : Nat := pcBits s.cfg.m addr ^^^ s.shiftedHistory

end Sys2Proof.Machine
end

