-- ==== Sys2Proof/Machine/Flags.lean ====
section
/-! DEFINITION. The predicted direction (R104), and the statistics counters with the sticky flag
`ovf` (R129). -/

namespace Sys2Proof.Machine

/-- `predictedTaken = (counter >= 2)` (R104). -/
def predictsTaken (c : Counter) : Bool := decide (2 ≤ c.toNat)

/-- `PredictRead(index)`: the predicted direction at an index (R104). -/
def State.predictRead (s : State) (i : Nat) : Bool := predictsTaken (s.phtRead i)

/-- Whether `Inc(c)` may count: `CNT_W = ∞ or c < 2^CNT_W - 1` (R129). -/
def hasRoom : CntWidth → Nat → Bool
  | .unbounded, _ => true
  | .bits w, c => decide (c < 2 ^ w - 1)

/-- The value `Inc(c)` returns: `c + 1`, or `c` saturated at `2^CNT_W - 1` (R129). -/
def incValue (width : CntWidth) (c : Nat) : Nat := if hasRoom width c then c + 1 else c

/-- `predictions <- Inc(predictions)`, which sets `ovf` when there is no room (R129, R130). -/
def State.incPredictions (s : State) : State :=
  { s with
    predictions := incValue s.cfg.cntW s.predictions
    ovf := s.ovf || !hasRoom s.cfg.cntW s.predictions }

/-- `mispredictions <- Inc(mispredictions)`, which sets `ovf` when there is no room (R129, R130). -/
def State.incMispredictions (s : State) : State :=
  { s with
    mispredictions := incValue s.cfg.cntW s.mispredictions
    ovf := s.ovf || !hasRoom s.cfg.cntW s.mispredictions }

/-- `if mis then mispredictions <- Inc(mispredictions)` (R130). -/
def State.countMisprediction (s : State) (mis : Bool) : State :=
  if mis then s.incMispredictions else s

end Sys2Proof.Machine
end

