-- ==== Sys2Proof/Machine/Branch.lean ====
section
/-! DEFINITION. PROCESS_BRANCH (R130). -/

namespace Sys2Proof.Machine

/-- The steps of PROCESS_BRANCH after the prediction, with the index and the prediction as they were
before any state of this branch changed (R105, R130); `respond(status = OK, ovf, pred_taken, mispredict, idx_out)`. -/
def finishBranch (s : State) (idx : Nat) (pred taken : Bool) : State :=
  let mis := pred != taken
  let t := (s.countMisprediction mis).update idx taken
  t.respond (Response.direction t.ovf pred mis idx)

/-- PROCESS_BRANCH(addr, taken) (R130). The statistics hold nothing the index or the prediction reads. -/
def execProcessBranch (addr : Nat) (taken : Bool) (s : State) : Host.Outcome State Fault Refusal :=
  let s₁ := s.incPredictions
  let idx := s₁.index addr
  .next (finishBranch s₁ idx (s₁.predictRead idx) taken)

end Sys2Proof.Machine
end

