-- ==== Sys2Proof/Machine/Statistics.lean ====
section
/-! DEFINITION. RATE_QUERY (R135). -/

namespace Sys2Proof.Machine

/-- RATE_QUERY(): `respond(status = OK, ovf, pred_count, mispred_count)`; no state is written (R135). -/
def execRateQuery (s : State) : Host.Outcome State Fault Refusal :=
  .next (s.respond (Response.counts s.ovf s.predictions s.mispredictions))

end Sys2Proof.Machine
end

