-- ==== Sys2Proof/Machine/SubOps.lean ====
section
/-! DEFINITION. The standalone sub-operations PREDICT (R140) and UPDATE (R145), legal only when
`EXPOSE_SUBOPS = true`; otherwise the answer is ILLEGAL_CMD (R182). -/

namespace Sys2Proof.Machine

/-- PREDICT(addr) (R140): the index and the prediction, no state written. -/
def execPredict (addr : Nat) (s : State) : Host.Outcome State Fault Refusal :=
  if s.cfg.exposeSubops then
    .next (s.respond
      (Response.direction s.ovf (s.predictRead (s.index addr)) false (s.index addr)))
  else .next s.answerIllegal

/-- UPDATE(idx, taken) (R145): the counter at `idx` and the history, the statistics untouched. -/
def execUpdate (idx : Nat) (taken : Bool) (s : State) : Host.Outcome State Fault Refusal :=
  if s.cfg.exposeSubops then .next ((s.update idx taken).respond (Response.blank s.ovf))
  else .next s.answerIllegal

end Sys2Proof.Machine
end

