-- ==== Sys2Proof/Machine/Dispatch.lean ====
section
/-! DEFINITION. One arm per command, each one call of the command's meaning. -/

namespace Sys2Proof.Machine

def exec (i : Instr) (s : State) : Host.Outcome State Fault Refusal :=
  match i with
  | .processBranch addr taken => Sys2Proof.Machine.execProcessBranch addr taken s
  | .rateQuery => Sys2Proof.Machine.execRateQuery s
  | .predict addr => Sys2Proof.Machine.execPredict addr s
  | .update idx taken => Sys2Proof.Machine.execUpdate idx taken s

end Sys2Proof.Machine
end

