-- ==== Sys2Proof/Machine/Step.lean ====
section
/-! DEFINITION. One atomic step: the block takes the oldest item its driver has offered (R16, R61,
R201, R210). -/

namespace Sys2Proof.Machine

/-- The step. With nothing offered the block holds its state (R195; log 5); a reset is applied whole
(R201); a command word is decoded and executed (R71); a number that is no command word is refused by
name (log 8). -/
def step (s : State) : Host.Outcome State Fault Refusal :=
  match s.inputs with
  | [] => .next s.idle
  | .reset :: _ => .next s.accept.applyReset
  | .command w :: _ =>
    match decode s.cfg w with
    | .ok i => exec i s.accept
    | .error .notACommandWord => .refused (.notACommandWord w)

/-- `s` with a command word of `nbits` bits offered ahead of every held item, so that the next step
takes it (log 7). -/
def State.withFetchWord (s : State) (nbits w : Nat) : State :=
  { s with inputs := .command (w % 2 ^ nbits) :: s.inputs }

end Sys2Proof.Machine
end

