-- ==== Sys2Proof/Machine/Trace.lean ====
section
/-! DEFINITION. The trace file's text, read by the driver (R163 to R169): lines, fields, hexadecimal
addresses and outcome tokens. The driver is outside the block (R5; log 19). -/

namespace Sys2Proof.Machine

/-- The ASCII whitespace of R169. -/
def isSpace (c : Char) : Bool :=
  c == ' ' || c == '\t' || c == '\r' || c == '\n' || c.toNat == 0x0b || c.toNat == 0x0c

/-- Whitespace outside R169, which makes the driver model refuse the trace (I14; log 14). -/
def openSpace (c : Char) : Bool :=
  let v := c.toNat
  (0x1c ≤ v && v ≤ 0x1f) || v == 0x85 || v == 0xa0 || v == 0x1680 || (0x2000 ≤ v && v ≤ 0x200a)
    || v == 0x2028 || v == 0x2029 || v == 0x202f || v == 0x205f || v == 0x3000

/-- The lines of a text; "lines end at line feed" (R169; log 14). -/
def splitLines : List Char → List (List Char)
  | [] => []
  | c :: cs =>
    if c = '\n' then [] :: splitLines cs
    else
      match splitLines cs with
      | [] => [[c]]
      | l :: ls => (c :: l) :: ls

/-- The fields of a line, split on runs of whitespace, leading and trailing whitespace ignored (R169). -/
def fields : List Char → List (List Char)
  | [] => []
  | c :: cs =>
    if isSpace c then fields cs
    else
      match cs, fields cs with
      | d :: _, f :: fs => if isSpace d then [c] :: f :: fs else (c :: f) :: fs
      | _, fs => [c] :: fs

/-- The value of a hexadecimal digit (R168). -/
def hexDigit (c : Char) : Option Nat :=
  let v := c.toNat
  if 48 ≤ v ∧ v ≤ 57 then some (v - 48)
  else if 97 ≤ v ∧ v ≤ 102 then some (v - 87)
  else if 65 ≤ v ∧ v ≤ 70 then some (v - 55)
  else none

/-- The value of a string of hexadecimal digits, most significant first, after `acc`. -/
def hexValueFrom (acc : Nat) : List Char → Option Nat
  | [] => some acc
  | c :: cs =>
    match hexDigit c with
    | some d => hexValueFrom (16 * acc + d) cs
    | none => none

/-- The value of "one or more characters" of `0-9`, `a-f`, `A-F` (R168). -/
def hexValue (cs : List Char) : Option Nat := if cs = [] then none else hexValueFrom 0 cs

/-- A field without its optional `0x` or `0X` (R168). -/
def withoutPrefix : List Char → List Char
  | '0' :: 'x' :: cs => cs
  | '0' :: 'X' :: cs => cs
  | cs => cs

/-- How the first field of a line reads as a hexadecimal integer. -/
inductive HexField where
  /-- A spelling R168 admits. -/
  | value (a : Nat)
  /-- No hexadecimal integer, by the spec's own word (R165). -/
  | bad
  /-- A spelling the spec leaves open (R168, `HEX_EXTRA`). -/
  | openSpelling
  deriving DecidableEq, Repr

/-- The first fields the spec itself names as bad hex: the source's `xyz` (R165; log 13). -/
def statedBadHex : List (List Char) := ["xyz".toList]

/-- The first field of a line (R164 (2), R165, R168; log 13). -/
def hexField (f : List Char) : HexField :=
  match hexValue (withoutPrefix f) with
  | some a => .value a
  | none => if f ∈ statedBadHex then .bad else .openSpelling

/-- The outcome token: `t` or `n`, case-insensitively (R164 (3)). -/
def outcomeToken : List Char → Option Bool
  | ['t'] => some true
  | ['T'] => some true
  | ['n'] => some false
  | ['N'] => some false
  | _ => none

/-- What the driver makes of a line. -/
inductive LineVerdict where
  /-- Valid: one PROCESS_BRANCH (R164). -/
  | branch (addr : Nat) (taken : Bool)
  /-- Invalid: "skipped with a warning" (R165). -/
  | skipped
  /-- The trace is refused: an open hexadecimal spelling (I13). -/
  | openHex
  /-- The trace is refused: open whitespace (I14). -/
  | openWhitespace
  deriving DecidableEq, Repr

/-- The verdict on one line (R164, R165, R168, R169). An open first field refuses the trace whatever stands
behind it: the driver "must not treat it as skipped" (R168; log 15). -/
def lineVerdict (line : List Char) : LineVerdict :=
  if line.any openSpace then .openWhitespace
  else
    match fields line with
    | [] => .skipped
    | addr :: rest =>
      match hexField addr with
      | .openSpelling => .openHex
      | .bad => .skipped
      | .value a =>
        match rest.head?.bind outcomeToken with
        | some taken => .branch a taken
        | none => .skipped

/-- What the driver takes from a trace: its branches in file order, and the numbers of the lines it
warns about. -/
structure Trace where
  branches : List (Nat × Bool)
  warnings : List Nat
  deriving DecidableEq, Repr

/-- Read the lines from number `k` on (R165, R166). -/
def readLines (k : Nat) : List (List Char) → Except Refusal Trace
  | [] => .ok ⟨[], []⟩
  | line :: rest =>
    match lineVerdict line with
    | .openHex => .error (.hexSpellingOpen k)
    | .openWhitespace => .error (.whitespaceOpen k)
    | .branch a taken =>
      match readLines (k + 1) rest with
      | .ok t => .ok { t with branches := (a, taken) :: t.branches }
      | .error r => .error r
    | .skipped =>
      match readLines (k + 1) rest with
      | .ok t => .ok { t with warnings := k :: t.warnings }
      | .error r => .error r

/-- Read a whole trace text, lines numbered from 1. -/
def readTrace (text : List Char) : Except Refusal Trace := readLines 1 (splitLines text)

end Sys2Proof.Machine
end

