-- ==== Sys2Proof/Machine/Assembler.lean ====
section
/-! DEFINITION. The mnemonic syntax of commands (R82; log 20). -/

namespace Sys2Proof.Machine

/-- The value of a string of decimal digits, most significant first, after `acc`. -/
def decimalValueFrom (acc : Nat) : List Char → Option Nat
  | [] => some acc
  | c :: cs =>
    if 48 ≤ c.toNat ∧ c.toNat ≤ 57 then decimalValueFrom (10 * acc + (c.toNat - 48)) cs else none

/-- The value of one or more decimal digits. -/
def decimalValue (cs : List Char) : Option Nat := if cs = [] then none else decimalValueFrom 0 cs

/-- An `<addr>` or `<idx>`: "hexadecimal with a `0x` prefix, or in decimal" (R82). -/
def asmNumber : List Char → Option Nat
  | '0' :: 'x' :: cs => hexValue cs
  | cs => decimalValue cs

/-- The text before the first comma, and the text after it if there is one. -/
def splitComma : List Char → List Char × Option (List Char)
  | [] => ([], none)
  | c :: cs =>
    if c = ',' then ([], some cs) else ((c :: (splitComma cs).1), (splitComma cs).2)

/-- The command a line of the mnemonic syntax spells; an `update` whose index is `2^M` or more
"spells no command" (R82). -/
def assemble (cfg : Config) (line : List Char) : Option Instr :=
  match fields (splitComma line).1, (splitComma line).2.map fields with
  | [mnemonic], none => if mnemonic = "rate_query".toList then some .rateQuery else none
  | [mnemonic, a], none =>
    if mnemonic = "predict".toList then
      (asmNumber a).map fun addr => .predict (addr % 2 ^ cfg.addrW)
    else none
  | [mnemonic, a], some [dir] =>
    match asmNumber a, outcomeToken dir with
    | some v, some taken =>
      if mnemonic = "process_branch".toList then some (.processBranch (v % 2 ^ cfg.addrW) taken)
      else if mnemonic = "update".toList ∧ v < cfg.phtSize then some (.update v taken)
      else none
    | _, _ => none
  | _, _ => none

end Sys2Proof.Machine
end

