-- ==== Sys2Proof/Machine/Rate.lean ====
section
/-! DEFINITION. The misprediction rate, evaluated by the consumer of RATE_QUERY and not by the block
(decision D8): the exact rational (R136), the source's float (R137) and its two-decimal form (R170).
The float format is the spec's general knowledge (G2 to G4; log 17). -/

namespace Sys2Proof.Machine

/-- `RateExact(p, m)` (R136). -/
def rateExact (p m : Nat) : Rat := if p = 0 then 0 else 100 * m / p

/-- A non-negative binary64 value, `mant / 2^scale`. -/
structure Binary64 where
  mant : Nat
  scale : Nat
  deriving DecidableEq, Repr

/-- The exact rational a binary64 value is. -/
def Binary64.toRat (x : Binary64) : Rat := x.mant / 2 ^ x.scale

/-- The integer nearest to `num / den`, ties to even. -/
def roundTiesEven (num den : Nat) : Nat :=
  let q := num / den
  let r := num % den
  if 2 * r < den then q else if den < 2 * r then q + 1 else q + q % 2

/-- The exponent `e` with `2^e <= num / den < 2^(e+1)`, for positive `num` and `den`. -/
def ratioLog2 (num den : Nat) : Int :=
  let d : Int := (Nat.log2 num : Int) - (Nat.log2 den : Int)
  if den * 2 ^ d.toNat ≤ num * 2 ^ (-d).toNat then d else d - 1

/-- The number of fraction bits of the binary64 values around `num / den`: 53 significant bits, and at
most 1074 fraction bits. Negative where the values are multiples of a power of two. -/
def fractionBits (num den : Nat) : Int := min 1074 (52 - ratioLog2 num den)

/-- `RNE64(num / den)`: the nearest binary64 value, ties to even (R137). -/
def rne64 (num den : Nat) : Binary64 :=
  if num = 0 then ⟨0, 0⟩
  else
    let k := fractionBits num den
    ⟨roundTiesEven (num * 2 ^ k.toNat) (den * 2 ^ (-k).toNat) * 2 ^ (-k).toNat, k.toNat⟩

/-- `Rate64(p, m) = RNE64(RNE64(m / p) * 100)`, and 0 when `p = 0` (R137): division first. -/
def rate64 (p m : Nat) : Binary64 :=
  if p = 0 then ⟨0, 0⟩
  else
    let q := rne64 m p
    rne64 (q.mant * 100) (2 ^ q.scale)

/-- Fixed-point decimal with exactly two digits after the point, correctly rounded from the binary
value, ties to even (R170). -/
def twoDecimals (x : Binary64) : List Char :=
  let h := roundTiesEven (x.mant * 100) (2 ^ x.scale)
  Nat.toDigits 10 (h / 100) ++ ['.', Nat.digitChar (h / 10 % 10), Nat.digitChar (h % 10)]

end Sys2Proof.Machine
end

