-- ==== Sys2Proof/Machine/Driver.lean ====
section
/-! DEFINITION. The driver's contract (R160 to R173): the command line, the commands of a trace, the run
of the block and the result line. The driver is outside the block (R5; log 19). -/

namespace Sys2Proof.Machine

/-- A text without its leading and trailing blanks. -/
def trimBlanks (cs : List Char) : List Char :=
  let blank := fun c => isSpace c || openSpace c
  ((cs.dropWhile blank).reverse.dropWhile blank).reverse

/-- A text without the one sign it may begin with. -/
def withoutSign : List Char → List Char
  | '-' :: cs => cs
  | '+' :: cs => cs
  | cs => cs

/-- The zeros of Unicode's decimal digits outside ASCII (general category Nd, Unicode 14); each begins a run
of ten digits (log 16). -/
def unicodeZeros : List Nat :=
  [0x660, 0x6f0, 0x7c0, 0x966, 0x9e6, 0xa66, 0xae6, 0xb66, 0xbe6, 0xc66, 0xce6, 0xd66, 0xde6, 0xe50, 0xed0,
    0xf20, 0x1040, 0x1090, 0x17e0, 0x1810, 0x1946, 0x19d0, 0x1a80, 0x1a90, 0x1b50, 0x1bb0, 0x1c40, 0x1c50] ++
  [0xa620, 0xa8d0, 0xa900, 0xa9d0, 0xa9f0, 0xaa50, 0xabf0, 0xff10] ++
  [0x104a0, 0x10d30, 0x11066, 0x110f0, 0x11136, 0x111d0, 0x112f0, 0x11450, 0x114d0, 0x11650, 0x116c0,
    0x11730, 0x118e0, 0x11950, 0x11c50, 0x11d50, 0x11da0, 0x16a60, 0x16ac0, 0x16b50, 0x1d7ce, 0x1d7d8,
    0x1d7e2, 0x1d7ec, 0x1d7f6, 0x1e140, 0x1e2f0, 0x1e950, 0x1fbf0]

/-- A decimal digit of ASCII. -/
def isAsciiDigit (c : Char) : Bool := 48 ≤ c.toNat && c.toNat ≤ 57

/-- A decimal digit of ASCII or of another script (log 16). -/
def isDecimalDigit (c : Char) : Bool :=
  isAsciiDigit c || unicodeZeros.any (fun z => z ≤ c.toNat && c.toNat < z + 10)

/-- A text without the minus sign it may begin with. -/
def withoutMinus : List Char → List Char
  | '-' :: cs => cs
  | cs => cs

/-- A spelling that some readers of integers take and others do not: decimal digits, of ASCII or not, and
underscores, with blanks around them and one sign before them (log 16). -/
def isOpenInteger (cs : List Char) : Bool :=
  let ds := withoutSign (trimBlanks cs)
  ds.all (fun c => isDecimalDigit c || c == '_') && ds.any isDecimalDigit

/-- A character that an integer may hold in some spelling: a decimal digit, a sign, an underscore or a blank.
A text with any other is a non-integer (R160, R161; log 16). -/
def mayStandInInteger (c : Char) : Bool :=
  isDecimalDigit c || c == '-' || c == '+' || c == '_' || isSpace c || openSpace c

/-- How a command-line argument for M or N reads as an integer, `none` for a non-integer (R160, R161):
decimal digits with an optional minus sign are an integer, an open spelling is a free value, and every
other text is a non-integer (log 16). -/
def integerArg (cs : List Char) : Option Int :=
  match decimalValue (withoutMinus cs) with
  | some v => some (if cs.head? = some '-' then -(v : Int) else v)
  | none => if isOpenInteger cs then Config.openInteger cs else none

/-- Why no instance is built. -/
inductive ConfigError where
  /-- `M <= 0`, `N < 0` or `N > M`: rejected by the driver with a failing exit (R160). -/
  | invalid
  /-- `ADDR_W < M + 2`: the instance "is refused" (I9; log 3). -/
  | narrowAddress
  deriving DecidableEq, Repr

/-- Validation of `(M, N)` before the engine exists (R160, I9); the other parameters are those of `base`. -/
def validateConfig (base : Config) (m n : Int) : Except ConfigError Config :=
  if h : 1 ≤ m ∧ 0 ≤ n ∧ n ≤ m then
    if ha : m.toNat + 2 ≤ base.addrW then
      .ok { base with
        m := m.toNat
        n := n.toNat
        m_pos := by omega
        n_le_m := by omega
        addrW_wide := ha }
    else .error .narrowAddress
  else .error .invalid

/-- `EXIT_FAIL`, "any non-zero value" (R173, decision D21; log 18). -/
structure ExitFail where
  status : Nat
  nonzero : status ≠ 0
  deriving DecidableEq, Repr

/-- The trace file as the driver meets it: the lines it could read, and whether a file-level error came
up after them; a file that is missing or unreadable gives no line and an error (R163). -/
structure TraceFile where
  text : List Char
  ioError : Bool
  deriving DecidableEq, Repr

/-- What the outside sees of a run: the exit status, the one result line if there is one, and the lines
warned about on the diagnostic channel (R170, R173). -/
structure Report where
  exit : Nat
  result : Option (List Char)
  warnings : List Nat
  deriving DecidableEq, Repr

/-- A failing run: non-zero exit, no result line, the warnings given so far (R161, R163, R165, R172, R173). -/
def failingReport (exitFail : ExitFail) (warnings : List Nat) : Report :=
  ⟨exitFail.status, none, warnings⟩

/-- The command of one valid trace line, its address reduced mod `2^ADDR_W` (R164, R167, R83). -/
def branchCommand (cfg : Config) (b : Nat × Bool) : Nat :=
  encode cfg (.processBranch (b.1 % 2 ^ cfg.addrW) b.2)

/-- The commands of the valid lines: one PROCESS_BRANCH each, in file order (R166). -/
def branchInputs (cfg : Config) (branches : List (Nat × Bool)) : List Input :=
  branches.map (fun b => .command (branchCommand cfg b))

/-- The commands of a run: those of the valid lines, then one RATE_QUERY (R170). -/
def driverInputs (cfg : Config) (branches : List (Nat × Bool)) : List Input :=
  branchInputs cfg branches ++ [.command (encode cfg .rateQuery)]

/-- Issue items one at a time: each is offered "only after the previous one has completed" (R166, R210). -/
def issueAll : List Input → State → Host.Outcome State Fault Refusal
  | [], s => .next s
  | input :: rest, s =>
    match step (s.offer input) with
    | .next t => issueAll rest t
    | .fault e => .fault e
    | .refused r => .refused r

/-- "`<M> <N> <misprediction_rate formatted to exactly 2 decimal places>`" (R170). -/
def resultLine (cfg : Config) (p m : Nat) : List Char :=
  Nat.toDigits 10 cfg.m ++ ' ' :: Nat.toDigits 10 cfg.n ++ ' ' :: twoDecimals (rate64 p m)

/-- The report on the response to the final RATE_QUERY: no result line when `ovf = 1` (R172). -/
def reportOn (exitFail : ExitFail) (cfg : Config) (warnings : List Nat) (r : Response) : Report :=
  if r.ovf then failingReport exitFail warnings
  else ⟨0, some (resultLine cfg r.predCount r.mispredCount), warnings⟩

/-- The run of a validated configuration over a trace file, from the freshly constructed engine (R163,
R166, R170, R204). A file-level error discards the statistics, not the warnings already given (R163,
R165; log 21). Every run of the block ends with the response to the final command; the last case is
reached by none. -/
def driverTrace (exitFail : ExitFail) (cfg : Config) (file : TraceFile) :
    Host.Outcome Report Fault Refusal :=
  match readTrace file.text with
  | .error r => .refused r
  | .ok t =>
    if file.ioError then .next (failingReport exitFail t.warnings)
    else
      match issueAll (driverInputs cfg t.branches) (State.resetOf cfg) with
      | .next s =>
        match s.rsp with
        | some r => .next (reportOn exitFail cfg t.warnings r)
        | none => .next (failingReport exitFail t.warnings)
      | .fault e => .fault e
      | .refused r => .refused r

/-- The program: "exactly 4 positional arguments", the kind `gshare`, `M`, `N` and the trace path
(R161), the configuration validated before any trace processing (R160, R162). -/
def driverRun (exitFail : ExitFail) (base : Config) (args : List (List Char)) (file : TraceFile) :
    Host.Outcome Report Fault Refusal :=
  match args with
  | [kind, mArg, nArg, _] =>
    if kind = "gshare".toList then
      match integerArg mArg, integerArg nArg with
      | some m, some n =>
        match validateConfig base m n with
        | .ok cfg => driverTrace exitFail cfg file
        | .error .invalid => .next (failingReport exitFail [])
        | .error .narrowAddress => .refused (.narrowAddress m.toNat base.addrW)
      | _, _ => .next (failingReport exitFail [])
    else .next (failingReport exitFail [])
  | _ => .next (failingReport exitFail [])

end Sys2Proof.Machine
end

