-- ==== Sys2Proof/Machine/Response.lean ====
section
/-! DEFINITION. The packed response word RSP (R76) and a consumer's reader of it. -/

namespace Sys2Proof.Machine

/-- The code of a status (R181). -/
def Status.code : Status → Nat
  | .ok => 0
  | .illegalCmd => 1

/-- `RSP_W = 5 + M + 2*CNT_W` (R76). -/
def rspW (m w : Nat) : Nat := 5 + m + 2 * w

/-- The response word for an M-bit index and counters of `w` bits (R76). -/
def Response.packFields (m w : Nat) (r : Response) : Nat :=
  r.status.code + 2 ^ 2 * r.ovf.toNat + 2 ^ 3 * r.predTaken.toNat + 2 ^ 4 * r.mispredict.toNat
    + 2 ^ 5 * r.idxOut + 2 ^ (m + 5) * r.predCount + 2 ^ (m + w + 5) * r.mispredCount

/-- The response word of an instance: packed for a finite `CNT_W`; for `CNT_W = ∞` the response is the
record (R76; log 23). -/
def Response.pack (cfg : Config) (r : Response) : Option Nat :=
  match cfg.cntW with
  | .unbounded => none
  | .bits w => some (r.packFields cfg.m w)

/-- A consumer's reading of a response word. "A model of a consumer that receives" a reserved status
"must fault" (93_implementation_defined.md I5; log 24). -/
def Response.unpack (m w rsp : Nat) : Except Fault Response :=
  let fields (st : Status) : Response :=
    { status := st
      ovf := bitField rsp 2 1 == 1
      predTaken := bitField rsp 3 1 == 1
      mispredict := bitField rsp 4 1 == 1
      idxOut := bitField rsp 5 m
      predCount := bitField rsp (m + 5) w
      mispredCount := bitField rsp (m + w + 5) w }
  match bitField rsp 0 2 with
  | 0 => .ok (fields .ok)
  | 1 => .ok (fields .illegalCmd)
  | _ => .error .reservedStatus

end Sys2Proof.Machine
end

