-- ==== Sys2Proof/Safety.lean ====
section
/-! DEFINITION. What claims about the block are stated in: the invariant of its states (R185), the
reachable states, runs of commands with their responses, and the source's own engine as a reference. -/

namespace Sys2Proof.Machine

/-- A count that `CNT_W` bits hold (R30). -/
def fitsCounter : CntWidth → Nat → Bool
  | .unbounded, _ => true
  | .bits w, c => decide (c < 2 ^ w)

/-- The invariant of the block's states (R185): the table in canonical form (R26, log 4), the history
N bits wide (R27, R117), mispredictions at most predictions (R31), the counts in their width, and
`ovf` only with the branch count saturated, so never with unbounded counters (R32). -/
structure State.Inv (s : State) : Prop where
  pht_wf : Memory.wf s.cfg.phtSize s.pht
  gbh_lt : s.gbh < 2 ^ s.cfg.n
  mispredictions_le : s.mispredictions ≤ s.predictions
  predictions_fit : fitsCounter s.cfg.cntW s.predictions = true
  ovf_saturated : s.ovf = true → hasRoom s.cfg.cntW s.predictions = false

/-- Every held command is a word of `CMD_W` bits (R70). -/
def State.InputsAreWords (s : State) : Prop :=
  ∀ w, Input.command w ∈ s.inputs → w < 2 ^ s.cfg.cmdW

/-- The states of the runs of an instance: reset, then any offers of the driver and steps of the block. -/
inductive Reachable (cfg : Config) : State → Prop where
  | reset : Reachable cfg (State.resetOf cfg)
  | offer {s : State} (h : Reachable cfg s) (input : Input) : Reachable cfg (s.offer input)
  | step {s t : State} (h : Reachable cfg s) (hs : step s = .next t) : Reachable cfg t

/-- `k` steps of the block, stopping at the first fault or refusal. -/
def runSteps : Nat → State → Host.Outcome State Fault Refusal
  | 0, s => .next s
  | k + 1, s =>
    match step s with
    | .next t => runSteps k t
    | .fault e => .fault e
    | .refused r => .refused r

/-- Commands executed one after another, stopping at the first fault or refusal (R61). -/
def execAll : List Instr → State → Host.Outcome State Fault Refusal
  | [], s => .next s
  | i :: rest, s =>
    match exec i s with
    | .next t => execAll rest t
    | .fault e => .fault e
    | .refused r => .refused r

/-- The responses of commands executed one after another, oldest first. -/
def responsesOf : List Instr → State → List (Option Response)
  | [], _ => []
  | i :: rest, s =>
    match exec i s with
    | .next t => t.rsp :: responsesOf rest t
    | .fault _ => []
    | .refused _ => []

/-- The outcome a command gives to HistoryUpdate, if it does (R115, R130, R145). -/
def trainedOutcome (cfg : Config) : Instr → Option Bool
  | .processBranch _ taken => some taken
  | .rateQuery => none
  | .predict _ => none
  | .update _ taken => if cfg.exposeSubops then some taken else none

/-- Whether a command is a PROCESS_BRANCH. -/
def isProcessBranch : Instr → Bool
  | .processBranch _ _ => true
  | .rateQuery => false
  | .predict _ => false
  | .update _ _ => false

/-- The same state of the instance with unbounded statistics counters, the source's (R11). -/
def State.withUnboundedCounters (s : State) : State :=
  { s with cfg := { s.cfg with cntW := .unbounded, cntW_legal := rfl } }

end Sys2Proof.Machine

namespace Sys2Proof.Source

/-- The source's engine, as its construction, prediction and update sentences describe it: unbounded
counts, integer counters, a table that is a function of the index. A reference for claims, no state of
the machine. -/
structure Engine where
  pht : Nat → Int
  gbh : Nat
  predictions : Nat
  mispredictions : Nat

/-- Construction: every entry 2, history 0 (R34, R35, R36). -/
def fresh : Engine := ⟨fun _ => 2, 0, 0, 0⟩

/-- The source's index of an address (R100, the sentences quoted there). -/
def index (m n : Nat) (e : Engine) (addr : Nat) : Nat :=
  (addr / 4 % 2 ^ m) ^^^ (if n = 0 then 0 else e.gbh * 2 ^ (m - n))

/-- The source's `processBranch(address, outcome)` (R130). -/
def processBranch (m n : Nat) (e : Engine) (b : Nat × Bool) : Engine :=
  let i := index m n e b.1
  let predictedTaken := decide (2 ≤ e.pht i)
  { pht := fun j =>
      if j = i then (if b.2 then min 3 (e.pht i + 1) else max 0 (e.pht i - 1)) else e.pht j
    gbh := if n = 0 then 0 else e.gbh / 2 + (if b.2 then 2 ^ (n - 1) else 0)
    predictions := e.predictions + 1
    mispredictions := if predictedTaken = b.2 then e.mispredictions else e.mispredictions + 1 }

/-- The source's engine after a trace, one branch at a time, in trace order (R166). -/
def run (m n : Nat) (branches : List (Nat × Bool)) : Engine :=
  branches.foldl (processBranch m n) fresh

end Sys2Proof.Source
end

