-- ==== Sys2Proof/Certificates/Slice0/Obligations.lean ====
section
/-! DEFINITION. The statements for the provers. Formulas are written out from the rules, in ordinary
arithmetic on the instance's parameters, rather than through the model's own operations. -/

open Sys2Proof Sys2Proof.Machine

/-- R34, R35, R203: after reset every PHT entry is 2 and the GBH is 0, for every legal `(M, N)`. -/
def Obligations.ResetFillsTableAndClearsHistory : Prop :=
  ∀ cfg : Config,
    (∀ i, i < 2 ^ cfg.m → ((State.resetOf cfg).phtRead i).toNat = 2) ∧
    (State.resetOf cfg).gbhRead = 0 ∧ (State.resetOf cfg).gbh = 0

/-- Both counts and `ovf` are 0 after reset. `ovf` exists by the spec's own decision D7; the empty ports
(log 5, log 6) and the instance of `State.reset` (log 2) are the model's choices. -/
def Obligations.ResetClearsStatistics : Prop :=
  (∀ cfg : Config,
    (State.resetOf cfg).predictions = 0 ∧ (State.resetOf cfg).mispredictions = 0 ∧
    (State.resetOf cfg).ovf = false ∧ (State.resetOf cfg).cfg = cfg ∧
    (State.resetOf cfg).inputs = [] ∧ (State.resetOf cfg).rsp = none) ∧
  State.reset = State.resetOf Config.default

/-- The invariant holds of a freshly constructed engine. -/
def Obligations.ResetSatisfiesInvariant : Prop :=
  ∀ cfg : Config, (State.resetOf cfg).Inv

/-- Every step keeps the invariant, from every state that has it: the table stays canonical and inside
`2^M` entries, the GBH stays below `2^N`, mispredictions stay at most predictions, the counts stay in
`CNT_W` bits, and `ovf` is set only with the branch count saturated. -/
def Obligations.StepKeepsInvariant : Prop :=
  ∀ s t : State, s.Inv → step s = .next t → t.Inv

/-- Every PHT entry is in `[0, 3]` at every point of every run (R26). That an index of `2^M` or more reads
as the reset value is no rule: it says that the model's list, where an unlisted entry reads as 2, holds
entries of the table only (log 4). The further clauses (the GBH in N bits, mispredictions at most
predictions, every index inside the table, no `ovf` with unbounded counters) are those of R185's list
and of R32, which the spec marks as its own inferences and decisions. -/
def Obligations.ReachableStatesStayInBounds : Prop :=
  ∀ (cfg : Config) (s : State), Reachable cfg s →
    s.cfg = cfg ∧
    (∀ i, 0 ≤ (s.phtRead i).toNat ∧ (s.phtRead i).toNat ≤ 3) ∧
    (∀ i, 2 ^ cfg.m ≤ i → (s.phtRead i).toNat = 2) ∧
    s.gbh < 2 ^ cfg.n ∧
    s.mispredictions ≤ s.predictions ∧
    (∀ addr, s.index addr < 2 ^ cfg.m) ∧
    (cfg.cntW = .unbounded → s.ovf = false)

/-- A step takes the oldest held command and executes the command its word decodes to, with the items
behind it still held. -/
def Obligations.StepExecutesDecodedCommand : Prop :=
  ∀ (s : State) (w : Nat) (rest : List Input) (i : Instr),
    s.inputs = .command w :: rest → decode s.cfg w = .ok i →
    step s = exec i { s with inputs := rest }

/-- A reset is one step: every field of the state record at its reset value, the parameters unchanged,
the items behind it still held (log 10 for its place among them). -/
def Obligations.StepAppliesReset : Prop :=
  ∀ (s : State) (rest : List Input), s.inputs = .reset :: rest →
    ∃ t, step s = .next t ∧ (∀ i, (t.phtRead i).toNat = 2) ∧ t.gbh = 0 ∧ t.predictions = 0 ∧
      t.mispredictions = 0 ∧ t.ovf = false ∧ t.cfg = s.cfg ∧ t.inputs = rest ∧ t.rsp = none

/-- With nothing offered the block holds its state; that such a step answers next with an empty
response port is the model's choice (log 5, log 6). -/
def Obligations.StepIdleKeepsState : Prop :=
  ∀ s : State, s.inputs = [] →
    ∃ t, step s = .next t ∧ t.cfg = s.cfg ∧ t.pht = s.pht ∧ t.gbh = s.gbh ∧
      t.predictions = s.predictions ∧ t.mispredictions = s.mispredictions ∧ t.ovf = s.ovf ∧
      t.inputs = [] ∧ t.rsp = none

/-- A number that is no `CMD_W`-bit word is refused by name, and nothing else is (the model's choice,
log 8). -/
def Obligations.StepRefusesExactlyOverwideNumbers : Prop :=
  ∀ (s : State) (w : Nat) (rest : List Input), s.inputs = .command w :: rest →
    ((2 ^ (3 + s.cfg.addrW + s.cfg.m) ≤ w → step s = .refused (.notACommandWord w)) ∧
     (w < 2 ^ (3 + s.cfg.addrW + s.cfg.m) → ∃ t, step s = .next t))

/-- `op` alone selects the command, and the operands are the fields of the word (R71 to R74, R79). That
ops 10 and 11 decode to PREDICT and UPDATE also with `EXPOSE_SUBOPS = false`, where R80 gates them, is
the model's reading (log 9). -/
def Obligations.OpFieldSelectsCommand : Prop :=
  ∀ (cfg : Config) (w : Nat), w < 2 ^ (3 + cfg.addrW + cfg.m) →
    (w % 4 = 0 → decode cfg w =
      .ok (.processBranch (w / 8 % 2 ^ cfg.addrW) (decide (w / 4 % 2 = 1)))) ∧
    (w % 4 = 1 → decode cfg w = .ok .rateQuery) ∧
    (w % 4 = 2 → decode cfg w = .ok (.predict (w / 8 % 2 ^ cfg.addrW))) ∧
    (w % 4 = 3 → decode cfg w =
      .ok (.update (w / 2 ^ (cfg.addrW + 3)) (decide (w / 4 % 2 = 1))) ∧
      w / 2 ^ (cfg.addrW + 3) < 2 ^ cfg.m)

/-- Decoding the word of a well-formed command gives the command back, with every operand at every value
its field admits; the word has `CMD_W` bits; and what any word decodes to is well-formed. -/
def Obligations.DecodeInvertsEncode : Prop :=
  (∀ (cfg : Config) (i : Instr), i.wellFormed cfg = true →
    encode cfg i < 2 ^ (3 + cfg.addrW + cfg.m) ∧ decode cfg (encode cfg i) = .ok i) ∧
  (∀ (cfg : Config) (w : Nat) (i : Instr), decode cfg w = .ok i → i.wellFormed cfg = true)

/-- A field the selected command does not read changes neither its effect nor its response: two words
with the same op and the same read fields are stepped alike. -/
def Obligations.UnreadFieldsAreIgnored : Prop :=
  ∀ (s : State) (rest : List Input) (w w' : Nat),
    w < 2 ^ (3 + s.cfg.addrW + s.cfg.m) → w' < 2 ^ (3 + s.cfg.addrW + s.cfg.m) → w % 4 = w' % 4 →
    (w % 4 = 0 → w / 4 % 2 ^ (s.cfg.addrW + 1) = w' / 4 % 2 ^ (s.cfg.addrW + 1)) →
    (w % 4 = 2 → w / 8 % 2 ^ s.cfg.addrW = w' / 8 % 2 ^ s.cfg.addrW) →
    (w % 4 = 3 → w / 4 % 2 = w' / 4 % 2 ∧
      w / 2 ^ (s.cfg.addrW + 3) = w' / 2 ^ (s.cfg.addrW + 3)) →
    step { s with inputs := .command w :: rest } = step { s with inputs := .command w' :: rest }

/-- The worked encodings of 30_encoding.md section 5 decode to the commands they stand for. -/
def Obligations.WorkedEncodingsDecode : Prop :=
  ∀ cfg : Config, cfg.addrW = 32 →
    (cfg.m = 2 → decode cfg 0x20 = .ok (.processBranch 0x4 false)) ∧
    (cfg.m = 1 → decode cfg 0x4 = .ok (.processBranch 0x0 true)) ∧
    (cfg.m = 2 → decode cfg 0x1 = .ok .rateQuery) ∧
    (cfg.m = 3 → decode cfg 0x822 = .ok (.predict 0x104)) ∧
    (cfg.m = 3 → decode cfg 0x2800000003 = .ok (.update 5 false)) ∧
    (cfg.m = 2 → decode cfg 0x1800000007 = .ok (.update 3 true)) ∧
    (cfg.m = 4 → decode cfg 0x7fffffffc = .ok (.processBranch 0xffffffff true))

/-- R130: PROCESS_BRANCH completes in every state whose table is canonical. The index and the
prediction come from the state before it; the counter at that index is clamped; the history takes the
outcome at bit N-1; the counts count unless saturated; and the response carries the index, the
prediction and the comparison. Nothing else changes. -/
def Obligations.ProcessBranchTrainsAndCounts : Prop :=
  ∀ (s : State) (addr : Nat) (taken : Bool), Memory.wf s.cfg.phtSize s.pht →
    ∀ (idx : Nat) (pred mis pRoom mRoom : Bool),
      idx = (addr / 4 % 2 ^ s.cfg.m) ^^^
        (if s.cfg.n = 0 then 0 else s.gbh * 2 ^ (s.cfg.m - s.cfg.n)) →
      pred = decide (2 ≤ (s.phtRead idx).toNat) →
      mis = xor pred taken →
      pRoom = (match s.cfg.cntW with
        | .unbounded => true
        | .bits w => decide (s.predictions < 2 ^ w - 1)) →
      mRoom = (match s.cfg.cntW with
        | .unbounded => true
        | .bits w => decide (s.mispredictions < 2 ^ w - 1)) →
      ∃ t, exec (.processBranch addr taken) s = .next t ∧
        ((t.phtRead idx).toNat : Int) =
          (if taken then min 3 (((s.phtRead idx).toNat : Int) + 1)
           else max 0 (((s.phtRead idx).toNat : Int) - 1)) ∧
        (∀ j, j ≠ idx → t.phtRead j = s.phtRead j) ∧
        t.gbh = (if s.cfg.n = 0 then s.gbh
          else (s.gbh >>> 1) ||| (if taken then 1 <<< (s.cfg.n - 1) else 0)) ∧
        t.predictions = (if pRoom then s.predictions + 1 else s.predictions) ∧
        t.mispredictions = (if mis ∧ mRoom then s.mispredictions + 1 else s.mispredictions) ∧
        t.ovf = (s.ovf || !pRoom || (mis && !mRoom)) ∧
        t.rsp = some { status := .ok, ovf := t.ovf, predTaken := pred, mispredict := mis,
                       idxOut := idx, predCount := 0, mispredCount := 0 } ∧
        t.cfg = s.cfg ∧ t.inputs = s.inputs

/-- R135: RATE_QUERY completes in every state and answers the two counts; it writes no state, and every
PHT entry reads as before. -/
def Obligations.RateQueryAnswersCounts : Prop :=
  ∀ s : State, ∃ t, exec .rateQuery s = .next t ∧
    t.rsp = some { status := .ok, ovf := s.ovf, predTaken := false, mispredict := false, idxOut := 0,
                   predCount := s.predictions, mispredCount := s.mispredictions } ∧
    t = { s with rsp := t.rsp } ∧ ∀ i, t.phtRead i = s.phtRead i

/-- R140: PREDICT completes in every state of an instance with `EXPOSE_SUBOPS = true` and answers the
index and the prediction; it writes no state, and every PHT entry reads as before. In any other
instance it is illegal. -/
def Obligations.PredictAnswersPrediction : Prop :=
  ∀ (s : State) (addr idx : Nat),
    idx = (addr / 4 % 2 ^ s.cfg.m) ^^^
      (if s.cfg.n = 0 then 0 else s.gbh * 2 ^ (s.cfg.m - s.cfg.n)) →
    ∃ t, exec (.predict addr) s = .next t ∧ t = { s with rsp := t.rsp } ∧
      (∀ i, t.phtRead i = s.phtRead i) ∧
      t.rsp = some (if s.cfg.exposeSubops then
          { status := .ok, ovf := s.ovf, predTaken := decide (2 ≤ (s.phtRead idx).toNat),
            mispredict := false, idxOut := idx, predCount := 0, mispredCount := 0 }
        else
          { status := .illegalCmd, ovf := s.ovf, predTaken := false, mispredict := false,
            idxOut := 0, predCount := 0, mispredCount := 0 })

/-- R145: UPDATE completes in every state of an instance with `EXPOSE_SUBOPS = true` whose table is
canonical: the counter at `idx` is clamped, the history takes the outcome, and nothing else changes,
the statistics among it. In any other instance it is illegal and changes no state. -/
def Obligations.UpdateTrainsWithoutCounting : Prop :=
  ∀ (s : State) (idx : Nat) (taken : Bool),
    (Memory.wf s.cfg.phtSize s.pht → s.cfg.exposeSubops = true →
      ∃ t, exec (.update idx taken) s = .next t ∧
        ((t.phtRead idx).toNat : Int) =
          (if taken then min 3 (((s.phtRead idx).toNat : Int) + 1)
           else max 0 (((s.phtRead idx).toNat : Int) - 1)) ∧
        (∀ j, j ≠ idx → t.phtRead j = s.phtRead j) ∧
        t.gbh = (if s.cfg.n = 0 then s.gbh
          else (s.gbh >>> 1) ||| (if taken then 1 <<< (s.cfg.n - 1) else 0)) ∧
        t = { s with pht := t.pht, gbh := t.gbh, rsp := t.rsp } ∧
        t.rsp = some { status := .ok, ovf := s.ovf, predTaken := false, mispredict := false,
                       idxOut := 0, predCount := 0, mispredCount := 0 }) ∧
    (s.cfg.exposeSubops = false → exec (.update idx taken) s = .next { s with
      rsp := some { status := .illegalCmd, ovf := s.ovf, predTaken := false, mispredict := false,
                    idxOut := 0, predCount := 0, mispredCount := 0 } })

/-- ILLEGAL_CMD: a word with op 10 or 11 in an instance with `EXPOSE_SUBOPS = false` is answered with
that status, the unchanged `ovf` and zeros; no state field changes and the next item is next (the
spec's decisions D4 and D13). -/
def Obligations.IllegalCommandsAreInert : Prop :=
  ∀ (s : State) (w : Nat) (rest : List Input),
    s.inputs = .command w :: rest → w < 2 ^ (3 + s.cfg.addrW + s.cfg.m) → 2 ≤ w % 4 →
    s.cfg.exposeSubops = false →
    step s = .next { s with
      inputs := rest
      rsp := some { status := .illegalCmd, ovf := s.ovf, predTaken := false, mispredict := false,
                    idxOut := 0, predCount := 0, mispredCount := 0 } }

/-- A PHT write is read back at its index and changes no other entry (R52); that it keeps the table's list
canonical is about the model's representation (log 4). -/
def Obligations.PhtWriteIsReadBack : Prop :=
  ∀ (s : State) (i : Nat) (v : Counter), Memory.wf s.cfg.phtSize s.pht → i < 2 ^ s.cfg.m →
    (s.phtWrite i v).phtRead i = v ∧
    (∀ j, j ≠ i → (s.phtWrite i v).phtRead j = s.phtRead j) ∧
    Memory.wf s.cfg.phtSize (s.phtWrite i v).pht ∧
    s.phtWrite i v = { s with pht := (s.phtWrite i v).pht } ∧
    (s.phtRead i).toNat ≤ 3

/-- Two canonical tables with the same entries are the same list (the model's representation, log 4):
equal tables are equal data. -/
def Obligations.CanonicalTablesAreExtensional : Prop :=
  ∀ (size : Nat) (a b : Memory), Memory.wf size a → Memory.wf size b →
    (∀ i, i < size → a.read i = b.read i) → a = b

/-- R106: the index is inside the table for every address and every history of N bits. -/
def Obligations.IndexStaysInTable : Prop :=
  ∀ (s : State) (addr : Nat), s.gbh < 2 ^ s.cfg.n → s.index addr < 2 ^ s.cfg.m

/-- Where the history meets the address: below bit M-N the index is the address's bits, above it the
address's bits XOR the history, the most recent outcome at bit M-1 (R101, the spec's inference). -/
def Obligations.HistoryMeetsUpperIndexBits : Prop :=
  ∀ (s : State) (addr b : Nat), 1 ≤ s.cfg.n → b < s.cfg.m → s.gbh < 2 ^ s.cfg.n →
    (s.index addr).testBit b =
      (if b < s.cfg.m - s.cfg.n then addr.testBit (b + 2)
       else xor (addr.testBit (b + 2)) (s.gbh.testBit (b - (s.cfg.m - s.cfg.n))))

/-- R103: with `N = 0` the index is the low M bits of the address shifted by 2, whatever the history;
shifting the history register by M instead gives the same (the second clause is the spec's inference). -/
def Obligations.IndexWithoutHistory : Prop :=
  ∀ (s : State) (addr : Nat), s.cfg.n = 0 →
    s.index addr = addr / 4 % 2 ^ s.cfg.m ∧
    s.index addr = (addr / 4 % 2 ^ s.cfg.m) ^^^ (s.gbhRead * 2 ^ s.cfg.m)

/-- R102: with `N = M` the history is XORed without a shift. -/
def Obligations.IndexWithFullHistory : Prop :=
  ∀ (s : State) (addr : Nat), s.cfg.n = s.cfg.m →
    s.index addr = (addr / 4 % 2 ^ s.cfg.m) ^^^ s.gbh

/-- Only address bits [M+1:2] matter (R55, R56, the spec's inferences): two addresses that agree in them,
a misaligned one and its aligned one among them, are processed and predicted alike. -/
def Obligations.OnlyIndexedAddressBitsMatter : Prop :=
  ∀ (s : State) (a b : Nat) (taken : Bool), a / 4 % 2 ^ s.cfg.m = b / 4 % 2 ^ s.cfg.m →
    exec (.processBranch a taken) s = exec (.processBranch b taken) s ∧
    exec (.predict a) s = exec (.predict b) s

/-- R110: CounterUpdate clamps at both ends, writes the one entry, and leaves every other part of the
state. -/
def Obligations.CounterUpdateClamps : Prop :=
  ∀ (s : State) (i : Nat), Memory.wf s.cfg.phtSize s.pht →
    (((s.counterUpdate i true).phtRead i).toNat : Int) = min 3 (((s.phtRead i).toNat : Int) + 1) ∧
    (((s.counterUpdate i false).phtRead i).toNat : Int) = max 0 (((s.phtRead i).toNat : Int) - 1) ∧
    (∀ j taken, j ≠ i → (s.counterUpdate i taken).phtRead j = s.phtRead j) ∧
    (∀ taken, s.counterUpdate i taken = { s with pht := (s.counterUpdate i taken).pht })

/-- The laws of repeated updates of one entry (R113, the spec's inference): after one taken update at
least 1, after one not-taken at most 2; a counter that predicts taken predicts not-taken after one
not-taken update only from 2; after two updates alike the entry predicts that outcome; after three or
more it stands at 3 or 0. -/
def Obligations.RepeatedUpdatesSettleCounter : Prop :=
  ∀ (s : State) (i k : Nat), Memory.wf s.cfg.phtSize s.pht → i < 2 ^ s.cfg.m →
    let up := fun t : State => t.counterUpdate i true
    let down := fun t : State => t.counterUpdate i false
    (1 ≤ k → 1 ≤ ((up^[k] s).phtRead i).toNat ∧ ((down^[k] s).phtRead i).toNat ≤ 2) ∧
    (s.predictRead i = true → (down s).predictRead i = false → (s.phtRead i).toNat = 2) ∧
    (2 ≤ k → (up^[k] s).predictRead i = true ∧ (down^[k] s).predictRead i = false) ∧
    (3 ≤ k → ((up^[k] s).phtRead i).toNat = 3 ∧ ((down^[k] s).phtRead i).toNat = 0)

/-- R115: HistoryUpdate shifts the history right, sets bit N-1 to the outcome, and leaves every other
part of the state; with `N = 0` it has no effect. -/
def Obligations.HistoryUpdateShifts : Prop :=
  ∀ (s : State) (taken : Bool),
    (s.cfg.n = 0 → s.historyUpdate taken = s) ∧
    (1 ≤ s.cfg.n → s.historyUpdate taken =
      { s with gbh := (s.gbh >>> 1) ||| (taken.toNat <<< (s.cfg.n - 1)) })

/-- The history register holds the outcomes of the run (R118, the spec's inference): after any commands
from reset, bit N-1-j is the outcome given j updates before the most recent, and 0 where there was
none. -/
def Obligations.HistoryHoldsRecentOutcomes : Prop :=
  ∀ (cfg : Config) (commands : List Instr) (t : State),
    execAll commands (State.resetOf cfg) = .next t →
    ∀ j, j < cfg.n →
      t.gbh.testBit (cfg.n - 1 - j) =
        ((commands.filterMap (trainedOutcome cfg)).reverse[j]?).getD false

/-- The statistics of a run with unbounded counters: `predictions` counts the PROCESS_BRANCH commands,
and `mispredictions` the responses that report a misprediction. -/
def Obligations.StatisticsCountBranches : Prop :=
  ∀ (cfg : Config) (commands : List Instr), cfg.cntW = .unbounded →
    ∃ t, execAll commands (State.resetOf cfg) = .next t ∧
      t.predictions = commands.countP isProcessBranch ∧
      t.mispredictions = (responsesOf commands (State.resetOf cfg)).countP
        (fun r => r.any (fun q => q.mispredict)) ∧
      t.ovf = false

/-- Saturation (R183, the spec's decision D7): with the branch count at its maximum a PROCESS_BRANCH sets
`ovf`, holds the count, and still completes: the table and the history are updated as by the same
command in the instance with unbounded counters. -/
def Obligations.SaturationSetsOvfAndCompletes : Prop :=
  ∀ (s : State) (addr w : Nat) (taken : Bool),
    s.cfg.cntW = .bits w → s.predictions = 2 ^ w - 1 →
    ∃ t u, exec (.processBranch addr taken) s = .next t ∧
      exec (.processBranch addr taken) s.withUnboundedCounters = .next u ∧
      t.ovf = true ∧ t.predictions = 2 ^ w - 1 ∧ t.pht = u.pht ∧ t.gbh = u.gbh ∧
      (∃ r q, t.rsp = some r ∧ u.rsp = some q ∧ r.status = .ok ∧ r.ovf = true ∧
        r.predTaken = q.predTaken ∧ r.mispredict = q.mispredict ∧ r.idxOut = q.idxOut)

/-- `ovf` is sticky and reported (R32, R183, the spec's decision D7): no command clears it, only
PROCESS_BRANCH sets it, and every response carries its value after the command. -/
def Obligations.OvfIsStickyAndReported : Prop :=
  ∀ (i : Instr) (s : State), ∃ t r, exec i s = .next t ∧ t.rsp = some r ∧ r.ovf = t.ovf ∧
    (s.ovf = true → t.ovf = true) ∧
    (s.ovf = false → t.ovf = true → isProcessBranch i = true)

/-- Only training commands write the table and the history, only PROCESS_BRANCH writes the statistics,
and no command writes a parameter or a held item. -/
def Obligations.CommandsKeepWhatTheyDoNotWrite : Prop :=
  ∀ (i : Instr) (s t : State), exec i s = .next t →
    t.cfg = s.cfg ∧ t.inputs = s.inputs ∧
    (isProcessBranch i = false → t.predictions = s.predictions ∧
      t.mispredictions = s.mispredictions ∧ t.ovf = s.ovf) ∧
    (trainedOutcome s.cfg i = none → t.pht = s.pht ∧ t.gbh = s.gbh)

/-- PREDICT followed by UPDATE at the index it answered changes the table and the history exactly as one
PROCESS_BRANCH does; it differs only in not counting (R145 (b), the spec's inference). -/
def Obligations.PredictThenUpdateEqualsProcessBranch : Prop :=
  ∀ (s : State) (addr : Nat) (taken : Bool), s.cfg.exposeSubops = true →
    ∃ p u b q r, exec (.predict addr) s = .next p ∧ p.rsp = some q ∧
      exec (.update q.idxOut taken) p = .next u ∧
      exec (.processBranch addr taken) s = .next b ∧ b.rsp = some r ∧
      u.pht = b.pht ∧ u.gbh = b.gbh ∧ q.idxOut = r.idxOut ∧ q.predTaken = r.predTaken ∧
      u.predictions = s.predictions ∧ u.mispredictions = s.mispredictions ∧ u.ovf = s.ovf

/-- The dependencies between commands (R211, the spec's inference): after a PROCESS_BRANCH, a PREDICT
whose index meets the trained entry answers from the counter just written, and its index is computed
from the history just written. -/
def Obligations.TrainedEntryIsReadBack : Prop :=
  ∀ (s : State) (a b : Nat) (taken : Bool), Memory.wf s.cfg.phtSize s.pht →
    s.cfg.exposeSubops = true → 1 ≤ s.cfg.n →
    ∃ t p r q, exec (.processBranch a taken) s = .next t ∧ t.rsp = some r ∧
      exec (.predict b) t = .next p ∧ p.rsp = some q ∧
      q.idxOut = (b / 4 % 2 ^ s.cfg.m) ^^^
        (((s.gbh >>> 1) ||| (if taken then 1 <<< (s.cfg.n - 1) else 0)) *
          2 ^ (s.cfg.m - s.cfg.n)) ∧
      (q.idxOut = r.idxOut → q.predTaken =
        (if taken then decide (1 ≤ (s.phtRead r.idxOut).toNat)
         else decide (3 ≤ (s.phtRead r.idxOut).toNat)))

/-- RATE_QUERY and PREDICT may be repeated: asked again at once, each gives the same state and response
(R58, the spec's inference). -/
def Obligations.QueriesAreIdempotent : Prop :=
  ∀ (i : Instr) (s : State), i = .rateQuery ∨ (∃ addr, i = .predict addr) →
    ∃ t, exec i s = .next t ∧ exec i t = .next t

/-- No command reads the response of an earlier one (R37). -/
def Obligations.ResponsePortIsNeverRead : Prop :=
  ∀ (i : Instr) (s : State) (r : Option Response), exec i { s with rsp := r } = exec i s

/-- No command stops the block: from a state whose held commands are words of `CMD_W` bits, any number of
steps answers next, takes the held items in order and keeps the rest (R180, R61). That a step with
nothing held answers next, and that a reset is taken in its place among the held items, are the model's
choices (log 5, log 10). -/
def Obligations.BlockNeverStops : Prop :=
  ∀ (k : Nat) (s : State), s.InputsAreWords →
    ∃ t : State, runSteps k s = .next t ∧ t.inputs = s.inputs.drop k ∧
      t.InputsAreWords

/-- An item the driver offers while others are held waits behind them: it does not change what the next
step does, and it is not lost (R61, R210, of commands). The queue is the model's (log 5), and that a
reset waits in it like a command is the model's choice (log 10). -/
def Obligations.OfferedItemsWaitTheirTurn : Prop :=
  ∀ (s t : State) (x : Input), s.inputs ≠ [] → step s = .next t →
    step (s.offer x) = .next (t.offer x)

/-- No step changes a parameter of the instance (R9, R23). -/
def Obligations.ParametersNeverChange : Prop :=
  ∀ s t : State, step s = .next t → t.cfg = s.cfg

/-- A re-applied reset starts the run of a fresh engine: what came before it has no influence on any later
state or response (R131, R200, the spec's inferences). -/
def Obligations.RerunAfterResetIsDeterministic : Prop :=
  ∀ (s : State) (rest : List Input) (k : Nat), s.inputs = .reset :: rest →
    runSteps (k + 1) s =
      runSteps k { State.resetOf s.cfg with inputs := rest }

/-- The packed response is read back: a response whose fields fit packs into `RSP_W` bits, and a
consumer's reader gives it back; a reserved status faults (R76, I5). -/
def Obligations.ResponseWordIsReadBack : Prop :=
  (∀ (cfg : Config) (w : Nat) (r : Response), cfg.cntW = .bits w → r.idxOut < 2 ^ cfg.m →
    r.predCount < 2 ^ w → r.mispredCount < 2 ^ w →
    ∃ v, r.pack cfg = some v ∧ v < 2 ^ (5 + cfg.m + 2 * w) ∧
      Response.unpack cfg.m w v = .ok r) ∧
  (∀ m w v : Nat, 2 ≤ v % 4 → Response.unpack m w v = .error .reservedStatus)

/-- Every response of a state with the invariant fits the response word (R76): so no consumer of this
block meets the reserved status. -/
def Obligations.ResponsesFitTheirWord : Prop :=
  ∀ (i : Instr) (s : State) (w : Nat), s.Inv → i.wellFormed s.cfg = true → s.cfg.cntW = .bits w →
    ∃ t r v, exec i s = .next t ∧ t.rsp = some r ∧ r.pack s.cfg = some v ∧
      v < 2 ^ (5 + s.cfg.m + 2 * w) ∧ Response.unpack s.cfg.m w v = .ok r

/-- An instance with finite counters agrees with the unbounded one, the source's, as long as `ovf` is 0,
in every part of the state and every response; its table and history agree for ever (D7). -/
def Obligations.FiniteCountersAgreeUntilOverflow : Prop :=
  ∀ (cfg : Config) (commands : List Instr),
    ∃ t u, execAll commands (State.resetOf cfg) = .next t ∧
      execAll commands (State.resetOf cfg).withUnboundedCounters = .next u ∧
      t.pht = u.pht ∧ t.gbh = u.gbh ∧
      (t.ovf = false → t.withUnboundedCounters = u ∧
        responsesOf commands (State.resetOf cfg) =
          responsesOf commands (State.resetOf cfg).withUnboundedCounters)

/-- R136: the exact rate, a value in `[0, 100]` for the counts a run can have. -/
def Obligations.ExactRateIsAPercentage : Prop :=
  ∀ p m : Nat, m ≤ p →
    (p = 0 → rateExact p m = 0) ∧
    (p ≠ 0 → rateExact p m = 100 * (m : Rat) / (p : Rat)) ∧
    0 ≤ rateExact p m ∧ rateExact p m ≤ 100

/-- RNE64 rounds to the nearest value of its grid, ties to even, and its grid is that of binary64: 53
significant bits, or 1074 fraction bits (R137, general knowledge by the spec's own mark; log 17). -/
def Obligations.RoundingPicksNearest : Prop :=
  ∀ num den : Nat, 0 < num → 0 < den → num < den * 2 ^ 53 →
    (∀ j : Nat, |(num : Rat) / den - (rne64 num den).toRat| ≤
      |(num : Rat) / den - (j : Rat) / 2 ^ (rne64 num den).scale|) ∧
    (∀ j : Nat, |(num : Rat) / den - (rne64 num den).toRat| =
      |(num : Rat) / den - (j : Rat) / 2 ^ (rne64 num den).scale| →
      j ≠ (rne64 num den).mant → (rne64 num den).mant % 2 = 0) ∧
    (rne64 num den).mant ≤ 2 ^ 53 ∧ (rne64 num den).scale ≤ 1074 ∧
    (2 ^ 52 ≤ (rne64 num den).mant ∨ (rne64 num den).scale = 1074)

/-- The float rate lies in `[0, 100]` (R137, the spec's inference; log 17). -/
def Obligations.FloatRateIsAPercentage : Prop :=
  ∀ p m : Nat, m ≤ p → 0 ≤ (rate64 p m).toRat ∧ (rate64 p m).toRat ≤ 100

/-- R164: when a line with ordinary whitespace is valid, and what its command is: at least two fields,
the first a hexadecimal integer, the second `t` or `n` in either case; fields after them do not matter.
Which fields read as hexadecimal is `hexField` (log 13). -/
def Obligations.TraceLineIsABranchExactlyWhenValid : Prop :=
  ∀ (line : List Char) (a : Nat) (taken : Bool), line.any openSpace = false →
    (lineVerdict line = .branch a taken ↔
      ∃ f g rest, fields line = f :: g :: rest ∧ hexField f = .value a ∧
        ((taken = true ∧ (g = ['t'] ∨ g = ['T'])) ∨ (taken = false ∧ (g = ['n'] ∨ g = ['N']))))

/-- R165: an invalid line is skipped with a warning and issues no command; the branches of the other
lines are as without it. -/
def Obligations.InvalidLinesAreSkipped : Prop :=
  ∀ (k : Nat) (pre post : List (List Char)) (bad : List Char) (t : Trace),
    lineVerdict bad = .skipped → readLines k (pre ++ post) = .ok t →
    ∃ u, readLines k (pre ++ bad :: post) = .ok u ∧ u.branches = t.branches ∧
      k + pre.length ∈ u.warnings

/-- A trace with no valid line prints `<M> <N> 0.00` and succeeds (R171, the spec's inference; the driver
model is log 19, and which lines are skipped log 13). -/
def Obligations.EmptyTracePrintsZeroRate : Prop :=
  ∀ (cfg : Config) (exitFail : ExitFail) (text : List Char),
    (∀ line ∈ splitLines text, lineVerdict line = .skipped) →
    ∃ warnings, driverTrace exitFail cfg ⟨text, false⟩ = .next
      ⟨0, some (Nat.toDigits 10 cfg.m ++ ' ' :: Nat.toDigits 10 cfg.n ++ [' ', '0', '.', '0', '0']),
       warnings⟩

/-- A run that ends with `ovf = 1` prints no result line and fails with the non-zero status, its warnings
kept (R172, the spec's decision D7; the driver model is log 19). -/
def Obligations.OverflowedRunPrintsNothing : Prop :=
  ∀ (cfg : Config) (exitFail : ExitFail) (file : TraceFile) (t : Trace) (s : State),
    file.ioError = false → readTrace file.text = .ok t →
    issueAll (branchInputs cfg t.branches) (State.resetOf cfg) = .next s →
    s.ovf = true →
    driverTrace exitFail cfg file = .next ⟨exitFail.status, none, t.warnings⟩ ∧ exitFail.status ≠ 0

/-- Validation of the configuration (R160): exactly `M <= 0`, `N < 0` and `N > M` are rejected, exactly the
other instances with `ADDR_W < M + 2` are refused (I9; log 3), and the instance built has the M and N
given and the other parameters of the base. -/
def Obligations.ExactlyIllegalConfigurationsAreRejected : Prop :=
  ∀ (base : Config) (m n : Int),
    (validateConfig base m n = .error .invalid ↔ m ≤ 0 ∨ n < 0 ∨ m < n) ∧
    (validateConfig base m n = .error .narrowAddress ↔
      ¬ (m ≤ 0 ∨ n < 0 ∨ m < n) ∧ (base.addrW : Int) < m + 2) ∧
    (∀ cfg, validateConfig base m n = .ok cfg → (cfg.m : Int) = m ∧ (cfg.n : Int) = n ∧
      cfg.addrW = base.addrW ∧ cfg.cntW = base.cntW ∧ cfg.exposeSubops = base.exposeSubops)

/-- What the assembler spells is a well-formed command, so its word decodes to it; an index of `2^M` or
more spells none (R82, the spec's decision D3; log 20). -/
def Obligations.AssembledLinesDecode : Prop :=
  ∀ (cfg : Config) (line : List Char) (i : Instr), assemble cfg line = some i →
    i.wellFormed cfg = true ∧ decode cfg (encode cfg i) = .ok i

/-- The block is the source's engine: driven over any trace file the spec settles, an instance with
unbounded counters makes the driver print exactly the result line of the source's engine run over the
same branches with unbounded addresses. The driver model is log 19; the printed digits rest on the
binary64 of log 17, on both sides alike. -/
def Obligations.BlockPrintsTheSourcesResult : Prop :=
  ∀ (cfg : Config) (exitFail : ExitFail) (file : TraceFile) (t : Trace),
    cfg.cntW = .unbounded → file.ioError = false →
    readTrace file.text = .ok t →
    driverTrace exitFail cfg file = .next
      ⟨0, some (Nat.toDigits 10 cfg.m ++ ' ' :: Nat.toDigits 10 cfg.n ++ ' ' ::
        twoDecimals (rate64 (Source.run cfg.m cfg.n t.branches).predictions
          (Source.run cfg.m cfg.n t.branches).mispredictions)), t.warnings⟩

/-- The whole state of that run: table, history and counts are the source's (the driver model is log 19). -/
def Obligations.BlockStateIsTheSourcesState : Prop :=
  ∀ (cfg : Config) (branches : List (Nat × Bool)), cfg.cntW = .unbounded →
    ∃ s : State, issueAll (branchInputs cfg branches) (State.resetOf cfg) = .next s ∧
      (∀ i, ((s.phtRead i).toNat : Int) = (Source.run cfg.m cfg.n branches).pht i) ∧
      s.gbh = (Source.run cfg.m cfg.n branches).gbh ∧
      s.predictions = (Source.run cfg.m cfg.n branches).predictions ∧
      s.mispredictions = (Source.run cfg.m cfg.n branches).mispredictions ∧
      s.ovf = false

/-- The driver issues each command only after the previous one has completed (R166, R210; log 19): issuing
the words of well-formed commands to a block that holds nothing is executing the commands in order. -/
def Obligations.DriverIssuesOneAtATime : Prop :=
  ∀ (commands : List Instr) (s : State), s.inputs = [] →
    (∀ i ∈ commands, i.wellFormed s.cfg = true) →
    issueAll (commands.map (fun i => .command (encode s.cfg i))) s = execAll commands s

/-- A wrong argument count, another kind, a non-integer M or N, `M <= 0` or `N < 0` whatever the other
argument is, and `N > M` all give the non-zero exit and no result line, whatever the trace file is (R160 to
R162, R173). Which spellings are integers is log 16. -/
def Obligations.InvalidInvocationsExitFailing : Prop :=
  ∀ (exitFail : ExitFail) (base : Config) (args : List (List Char)) (file : TraceFile),
    args.length ≠ 4 ∨ args.head? ≠ some "gshare".toList ∨
      (∃ k arg, (k = 1 ∨ k = 2) ∧ args[k]? = some arg ∧ integerArg arg = none) ∨
      (∃ arg m, args[1]? = some arg ∧ integerArg arg = some m ∧ m ≤ 0) ∨
      (∃ arg n, args[2]? = some arg ∧ integerArg arg = some n ∧ n < 0) ∨
      (∃ mArg nArg m n, args[1]? = some mArg ∧ args[2]? = some nArg ∧ integerArg mArg = some m ∧
        integerArg nArg = some n ∧ m < n) →
    driverRun exitFail base args file = .next ⟨exitFail.status, none, []⟩ ∧ exitFail.status ≠ 0

/-- A first field whose spelling the spec leaves open refuses the whole trace, by its line, whatever the
rest of that line and the lines after it are (R168, D19, I13; log 13, log 15). -/
def Obligations.OpenAddressRefusesTrace : Prop :=
  ∀ (k : Nat) (pre post : List (List Char)) (line f : List Char) (rest : List (List Char)) (t : Trace),
    line.any openSpace = false → fields line = f :: rest → hexField f = .openSpelling →
    readLines k pre = .ok t →
    readLines k (pre ++ line :: post) = .error (.hexSpellingOpen (k + pre.length))

/-- A file-level error discards the statistics of the lines read before it and keeps their warnings (R163,
R165; log 21). -/
def Obligations.FileErrorsKeepOnlyWarnings : Prop :=
  ∀ (exitFail : ExitFail) (cfg : Config) (text : List Char) (t : Trace), readTrace text = .ok t →
    driverTrace exitFail cfg ⟨text, true⟩ = .next ⟨exitFail.status, none, t.warnings⟩

/-- An argument for M or N with a character that stands in no spelling of an integer, a letter of any script
among them, is a non-integer, and the driver exits non-zero (R160, R161). Which characters those are is
log 16. -/
def Obligations.LettersInAnArgumentExitFailing : Prop :=
  ∀ (exitFail : ExitFail) (base : Config) (kind mArg nArg path : List Char) (file : TraceFile) (c : Char),
    mayStandInInteger c = false → c ∈ mArg ∨ c ∈ nArg →
    driverRun exitFail base [kind, mArg, nArg, path] file = .next ⟨exitFail.status, none, []⟩ ∧
      exitFail.status ≠ 0
end

