-- ==== Sys2Proof/Laws/Decode.lean ====
section
/-! SUPPORT. The fields of a command word: each field of an assembled word is what was put there, and
the decoder's answer is a well-formed command. -/

namespace Sys2Proof

variable {cfg : Config}

/-- A Boolean's bit. -/
theorem bool_toNat_mod (b : Bool) : (b.toNat % 2 == 1) = b := by cases b <;> rfl

/-- Put together with `op` below 4, the op field reads back. -/
theorem opField_assembleFields {op : Nat} (hop : op < 4) (taken : Bool) (addr idx : Nat) :
    opField (assembleFields cfg op taken addr idx) = op := by
  have : 2 ^ (cfg.addrW + 3) * idx = 4 * (2 * 2 ^ cfg.addrW * idx) := by ring
  simp only [opField, bitField, assembleFields, this]
  omega

/-- The taken field reads back. -/
theorem takenField_assembleFields {op : Nat} (hop : op < 4) (taken : Bool) (addr idx : Nat) :
    takenField (assembleFields cfg op taken addr idx) = taken := by
  have : 2 ^ (cfg.addrW + 3) * idx = 8 * (2 ^ cfg.addrW * idx) := by ring
  have h : assembleFields cfg op taken addr idx / 2 ^ 2 % 2 ^ 1 = taken.toNat % 2 := by
    simp only [assembleFields, this]
    omega
  rw [takenField, bitField, h, bool_toNat_mod]

/-- The address field reads back. -/
theorem addrField_assembleFields {op addr : Nat} (hop : op < 4) (taken : Bool)
    (ha : addr < 2 ^ cfg.addrW) (idx : Nat) :
    addrField cfg (assembleFields cfg op taken addr idx) = addr := by
  have hi : 2 ^ (cfg.addrW + 3) * idx = 8 * (2 ^ cfg.addrW * idx) := by ring
  have ht : taken.toNat ≤ 1 := Bool.toNat_le taken
  have hd : assembleFields cfg op taken addr idx / 2 ^ 3 = addr + 2 ^ cfg.addrW * idx := by
    simp only [assembleFields, hi]
    omega
  rw [addrField, bitField, hd, Nat.add_mul_mod_self_left, Nat.mod_eq_of_lt ha]

/-- The index field reads back. -/
theorem idxField_assembleFields {op addr idx : Nat} (hop : op < 4) (taken : Bool)
    (ha : addr < 2 ^ cfg.addrW) (hidx : idx < 2 ^ cfg.m) :
    idxField cfg (assembleFields cfg op taken addr idx) = idx := by
  have ht : taken.toNat ≤ 1 := Bool.toNat_le taken
  have hp : 2 ^ (cfg.addrW + 3) = 8 * 2 ^ cfg.addrW := by ring
  have hlow : op + 2 ^ 2 * taken.toNat + 2 ^ 3 * addr < 2 ^ (cfg.addrW + 3) := by omega
  rw [idxField, bitField, assembleFields, Nat.add_mul_div_left _ _ (Nat.two_pow_pos _),
    Nat.div_eq_of_lt hlow, Nat.zero_add, Nat.mod_eq_of_lt hidx]

/-- An assembled word has `CMD_W` bits. -/
theorem assembleFields_lt {op addr idx : Nat} (hop : op < 4) (taken : Bool)
    (ha : addr < 2 ^ cfg.addrW) (hidx : idx < 2 ^ cfg.m) :
    assembleFields cfg op taken addr idx < 2 ^ cfg.cmdW := by
  have ht : taken.toNat ≤ 1 := Bool.toNat_le taken
  have hp : 2 ^ (cfg.addrW + 3) = 8 * 2 ^ cfg.addrW := by ring
  have hlow : op + 2 ^ 2 * taken.toNat + 2 ^ 3 * addr < 2 ^ (cfg.addrW + 3) := by omega
  have hw : cfg.cmdW = (cfg.addrW + 3) + cfg.m := by simp [Config.cmdW]; omega
  rw [hw, Nat.pow_add, assembleFields]
  calc op + 2 ^ 2 * taken.toNat + 2 ^ 3 * addr + 2 ^ (cfg.addrW + 3) * idx
      < 2 ^ (cfg.addrW + 3) * (idx + 1) := by rw [Nat.mul_add, Nat.mul_one]; omega
    _ ≤ 2 ^ (cfg.addrW + 3) * 2 ^ cfg.m := Nat.mul_le_mul_left _ hidx

/-- A word of `CMD_W` bits decodes by its op field alone. -/
theorem decode_of_lt {w : Nat} (hw : w < 2 ^ cfg.cmdW) :
    decode cfg w = match opField w with
      | 0 => .ok (.processBranch (addrField cfg w) (takenField w))
      | 1 => .ok .rateQuery
      | 2 => .ok (.predict (addrField cfg w))
      | _ => .ok (.update (idxField cfg w) (takenField w)) :=
  if_pos hw

/-- Every word of `CMD_W` bits has a command, and no other number has. -/
theorem decode_ok_iff {w : Nat} : (∃ i, decode cfg w = .ok i) ↔ w < 2 ^ cfg.cmdW := by
  constructor
  · rintro ⟨i, hi⟩
    by_contra hw
    simp [decode, hw] at hi
  · intro hw
    rw [decode_of_lt hw]
    split <;> exact ⟨_, rfl⟩

end Sys2Proof
end

