-- ==== Sys2Proof/Laws/Memory.lean ====
section
/-! SUPPORT. The laws of the PHT's storage: a read after a write, and the canonical form (log 4). -/

namespace Sys2Proof.Machine

variable {size : Nat} {mem : Memory}

/-- Below the first listed index nothing is listed. -/
theorem Memory.read_of_all_lt {i : Nat} (h : ∀ e ∈ mem, i < e.1) : mem.read i = Memory.unlisted := by
  induction mem with
  | nil => rfl
  | cons e rest ih =>
    have he : i ≠ e.1 := Nat.ne_of_lt (h e (by simp))
    simp only [Memory.read, if_neg he]
    exact ih fun e' h' => h e' (by simp [h'])

/-- A read after a write to the same index gives the value written. -/
theorem Memory.read_write_same (h : Memory.wf size mem) (i : Nat) (v : Counter) :
    (mem.write i v).read i = v := by
  induction mem with
  | nil => by_cases hv : v = Memory.unlisted <;> simp [Memory.write, Memory.read, hv]
  | cons e rest ih =>
    obtain ⟨k, c⟩ := e
    obtain ⟨hp, hb⟩ := h
    rw [List.pairwise_cons] at hp
    have hrest : Memory.wf size rest := ⟨hp.2, fun e' h' => hb e' (by simp [h'])⟩
    rcases Nat.lt_trichotomy i k with hlt | rfl | hgt
    · have hne : i ≠ k := Nat.ne_of_lt hlt
      by_cases hv : v = Memory.unlisted
      · have hread := Memory.read_of_all_lt (mem := rest) (i := i)
          fun e' h' => Nat.lt_trans hlt (hp.1 e' h')
        simp [Memory.write, Memory.read, hlt, hne, hv, hread]
      · simp [Memory.write, Memory.read, hlt, hv]
    · by_cases hv : v = Memory.unlisted
      · simp [Memory.write, hv, Memory.read_of_all_lt hp.1]
      · simp [Memory.write, Memory.read, hv]
    · have h1 : ¬ i < k := by omega
      have h2 : i ≠ k := by omega
      simp [Memory.write, Memory.read, h1, h2, ih hrest]

/-- A write leaves every other index alone. -/
theorem Memory.read_write_other (mem : Memory) {i j : Nat} (hij : j ≠ i) (v : Counter) :
    (mem.write i v).read j = mem.read j := by
  induction mem with
  | nil => by_cases hv : v = Memory.unlisted <;> simp [Memory.write, Memory.read, hv, hij]
  | cons e rest ih =>
    obtain ⟨k, c⟩ := e
    simp only [Memory.write]
    split
    · split <;> simp [Memory.read, hij]
    · split
      · rename_i _ hik
        subst hik
        split <;> simp [Memory.read, hij]
      · simp only [Memory.read, ih]

/-- Where an entry of a written table comes from. -/
theorem Memory.mem_write {i : Nat} {v : Counter} {e : Nat × Counter} (h : e ∈ mem.write i v) :
    e ∈ mem ∨ (e = (i, v) ∧ v ≠ Memory.unlisted) := by
  induction mem with
  | nil =>
    simp only [Memory.write] at h
    split at h <;> simp_all
  | cons e' rest ih =>
    obtain ⟨k, c⟩ := e'
    simp only [Memory.write] at h
    split at h
    · split at h
      · exact .inl h
      · simp only [List.mem_cons] at h ⊢
        tauto
    · split at h
      · split at h
        · exact .inl (by simp [h])
        · simp only [List.mem_cons] at h ⊢
          tauto
      · simp only [List.mem_cons] at h ⊢
        rcases h with h | h
        · exact .inl (.inl h)
        · rcases ih h with h | h
          · exact .inl (.inr h)
          · exact .inr h

/-- A write inside the table keeps the canonical form. -/
theorem Memory.wf_write (h : Memory.wf size mem) {i : Nat} (hi : i < size) (v : Counter) :
    Memory.wf size (mem.write i v) := by
  refine ⟨?_, fun e he => ?_⟩
  · induction mem with
    | nil => by_cases hv : v = Memory.unlisted <;> simp [Memory.write, hv]
    | cons e rest ih =>
      obtain ⟨k, c⟩ := e
      obtain ⟨hp, hb⟩ := h
      have hp' := List.pairwise_cons.1 hp
      have hrest : Memory.wf size rest := ⟨hp'.2, fun e' h' => hb e' (by simp [h'])⟩
      simp only [Memory.write]
      split
      · split
        · exact hp
        · refine List.pairwise_cons.2 ⟨fun e' h' => ?_, hp⟩
          rcases List.mem_cons.1 h' with rfl | h'
          · assumption
          · exact Nat.lt_trans ‹_› (hp'.1 e' h')
      · split
        · rename_i hik
          split
          · exact hp'.2
          · exact List.pairwise_cons.2 ⟨fun e' h' => hik ▸ hp'.1 e' h', hp'.2⟩
        · refine List.pairwise_cons.2 ⟨fun e' h' => ?_, ih hrest⟩
          rcases Memory.mem_write h' with h' | ⟨rfl, -⟩
          · exact hp'.1 e' h'
          · show k < i
            omega
  · rcases Memory.mem_write he with he | ⟨rfl, hv⟩
    · exact h.2 e he
    · exact ⟨hi, hv⟩

/-- Outside the table nothing is listed. -/
theorem Memory.read_of_size_le (h : Memory.wf size mem) {i : Nat} (hi : size ≤ i) :
    mem.read i = Memory.unlisted := by
  have hne : ∀ e ∈ mem, i ≠ e.1 := fun e he => by
    have := (h.2 e he).1
    omega
  clear h
  induction mem with
  | nil => rfl
  | cons e rest ih =>
    simp only [Memory.read, if_neg (hne e (by simp))]
    exact ih fun e' h' => hne e' (by simp [h'])

/-- The table after reset is canonical, whatever its size. -/
theorem Memory.wf_nil (size : Nat) : Memory.wf size ([] : Memory) := by simp [Memory.wf]

/-- Every entry reads as 2 after reset (R34). -/
@[simp] theorem Memory.read_nil (i : Nat) : Memory.read [] i = 2#2 := rfl

end Sys2Proof.Machine
end

