-- ==== Sys2Proof/Laws/State.lean ====
section
/-! SUPPORT. One lemma per field per update of the state. Where the update may or may not write the
field the lemma says which value it leaves. -/

namespace Sys2Proof.Machine

/-- Two states with the same fields are the same state. -/
@[ext] theorem State.ext {s t : State} (cfg : s.cfg = t.cfg) (pht : s.pht = t.pht)
    (gbh : s.gbh = t.gbh) (predictions : s.predictions = t.predictions)
    (mispredictions : s.mispredictions = t.mispredictions) (ovf : s.ovf = t.ovf)
    (inputs : s.inputs = t.inputs) (rsp : s.rsp = t.rsp) : s = t := by
  cases s; cases t; simp_all

variable (s : State)

@[simp] theorem State.phtWrite_cfg (i : Nat) (v : Counter) : (s.phtWrite i v).cfg = s.cfg := rfl
@[simp] theorem State.phtWrite_pht (i : Nat) (v : Counter) : (s.phtWrite i v).pht = s.pht.write i v := rfl
@[simp] theorem State.phtWrite_gbh (i : Nat) (v : Counter) : (s.phtWrite i v).gbh = s.gbh := rfl
@[simp] theorem State.phtWrite_predictions (i : Nat) (v : Counter) : (s.phtWrite i v).predictions = s.predictions := rfl
@[simp] theorem State.phtWrite_mispredictions (i : Nat) (v : Counter) : (s.phtWrite i v).mispredictions = s.mispredictions := rfl
@[simp] theorem State.phtWrite_ovf (i : Nat) (v : Counter) : (s.phtWrite i v).ovf = s.ovf := rfl
@[simp] theorem State.phtWrite_inputs (i : Nat) (v : Counter) : (s.phtWrite i v).inputs = s.inputs := rfl
@[simp] theorem State.phtWrite_rsp (i : Nat) (v : Counter) : (s.phtWrite i v).rsp = s.rsp := rfl

@[simp] theorem State.gbhWrite_cfg (v : Nat) : (s.gbhWrite v).cfg = s.cfg := by
  unfold State.gbhWrite; split <;> simp_all
@[simp] theorem State.gbhWrite_pht (v : Nat) : (s.gbhWrite v).pht = s.pht := by
  unfold State.gbhWrite; split <;> simp_all
@[simp] theorem State.gbhWrite_gbh (v : Nat) : (s.gbhWrite v).gbh = if s.cfg.n = 0 then s.gbh else v := by
  unfold State.gbhWrite; split <;> simp_all
@[simp] theorem State.gbhWrite_predictions (v : Nat) : (s.gbhWrite v).predictions = s.predictions := by
  unfold State.gbhWrite; split <;> simp_all
@[simp] theorem State.gbhWrite_mispredictions (v : Nat) : (s.gbhWrite v).mispredictions = s.mispredictions := by
  unfold State.gbhWrite; split <;> simp_all
@[simp] theorem State.gbhWrite_ovf (v : Nat) : (s.gbhWrite v).ovf = s.ovf := by
  unfold State.gbhWrite; split <;> simp_all
@[simp] theorem State.gbhWrite_inputs (v : Nat) : (s.gbhWrite v).inputs = s.inputs := by
  unfold State.gbhWrite; split <;> simp_all
@[simp] theorem State.gbhWrite_rsp (v : Nat) : (s.gbhWrite v).rsp = s.rsp := by
  unfold State.gbhWrite; split <;> simp_all

@[simp] theorem State.counterUpdate_cfg (i : Nat) (taken : Bool) : (s.counterUpdate i taken).cfg = s.cfg := rfl
@[simp] theorem State.counterUpdate_pht (i : Nat) (taken : Bool) : (s.counterUpdate i taken).pht = s.pht.write i (counterNext (s.phtRead i) taken) := rfl
@[simp] theorem State.counterUpdate_gbh (i : Nat) (taken : Bool) : (s.counterUpdate i taken).gbh = s.gbh := rfl
@[simp] theorem State.counterUpdate_predictions (i : Nat) (taken : Bool) : (s.counterUpdate i taken).predictions = s.predictions := rfl
@[simp] theorem State.counterUpdate_mispredictions (i : Nat) (taken : Bool) : (s.counterUpdate i taken).mispredictions = s.mispredictions := rfl
@[simp] theorem State.counterUpdate_ovf (i : Nat) (taken : Bool) : (s.counterUpdate i taken).ovf = s.ovf := rfl
@[simp] theorem State.counterUpdate_inputs (i : Nat) (taken : Bool) : (s.counterUpdate i taken).inputs = s.inputs := rfl
@[simp] theorem State.counterUpdate_rsp (i : Nat) (taken : Bool) : (s.counterUpdate i taken).rsp = s.rsp := rfl

@[simp] theorem State.historyUpdate_cfg (taken : Bool) : (s.historyUpdate taken).cfg = s.cfg := by
  simp [State.historyUpdate]
@[simp] theorem State.historyUpdate_pht (taken : Bool) : (s.historyUpdate taken).pht = s.pht := by
  simp [State.historyUpdate]
@[simp] theorem State.historyUpdate_gbh (taken : Bool) : (s.historyUpdate taken).gbh = historyNext s.cfg.n s.gbh taken := by
  simp only [State.historyUpdate, State.gbhWrite_gbh, State.gbhRead]; split <;> simp_all [historyNext]
@[simp] theorem State.historyUpdate_predictions (taken : Bool) : (s.historyUpdate taken).predictions = s.predictions := by
  simp [State.historyUpdate]
@[simp] theorem State.historyUpdate_mispredictions (taken : Bool) : (s.historyUpdate taken).mispredictions = s.mispredictions := by
  simp [State.historyUpdate]
@[simp] theorem State.historyUpdate_ovf (taken : Bool) : (s.historyUpdate taken).ovf = s.ovf := by
  simp [State.historyUpdate]
@[simp] theorem State.historyUpdate_inputs (taken : Bool) : (s.historyUpdate taken).inputs = s.inputs := by
  simp [State.historyUpdate]
@[simp] theorem State.historyUpdate_rsp (taken : Bool) : (s.historyUpdate taken).rsp = s.rsp := by
  simp [State.historyUpdate]

@[simp] theorem State.update_cfg (i : Nat) (taken : Bool) : (s.update i taken).cfg = s.cfg := by
  simp [State.update]
@[simp] theorem State.update_pht (i : Nat) (taken : Bool) : (s.update i taken).pht = s.pht.write i (counterNext (s.phtRead i) taken) := by
  simp [State.update]
@[simp] theorem State.update_gbh (i : Nat) (taken : Bool) : (s.update i taken).gbh = historyNext s.cfg.n s.gbh taken := by
  rw [State.update, State.historyUpdate_gbh]; rfl
@[simp] theorem State.update_predictions (i : Nat) (taken : Bool) : (s.update i taken).predictions = s.predictions := by
  simp [State.update]
@[simp] theorem State.update_mispredictions (i : Nat) (taken : Bool) : (s.update i taken).mispredictions = s.mispredictions := by
  simp [State.update]
@[simp] theorem State.update_ovf (i : Nat) (taken : Bool) : (s.update i taken).ovf = s.ovf := by
  simp [State.update]
@[simp] theorem State.update_inputs (i : Nat) (taken : Bool) : (s.update i taken).inputs = s.inputs := by
  simp [State.update]
@[simp] theorem State.update_rsp (i : Nat) (taken : Bool) : (s.update i taken).rsp = s.rsp := by
  simp [State.update]

@[simp] theorem State.respond_cfg (r : Response) : (s.respond r).cfg = s.cfg := rfl
@[simp] theorem State.respond_pht (r : Response) : (s.respond r).pht = s.pht := rfl
@[simp] theorem State.respond_gbh (r : Response) : (s.respond r).gbh = s.gbh := rfl
@[simp] theorem State.respond_predictions (r : Response) : (s.respond r).predictions = s.predictions := rfl
@[simp] theorem State.respond_mispredictions (r : Response) : (s.respond r).mispredictions = s.mispredictions := rfl
@[simp] theorem State.respond_ovf (r : Response) : (s.respond r).ovf = s.ovf := rfl
@[simp] theorem State.respond_inputs (r : Response) : (s.respond r).inputs = s.inputs := rfl
@[simp] theorem State.respond_rsp (r : Response) : (s.respond r).rsp = some r := rfl

@[simp] theorem State.answerIllegal_cfg : (s.answerIllegal).cfg = s.cfg := rfl
@[simp] theorem State.answerIllegal_pht : (s.answerIllegal).pht = s.pht := rfl
@[simp] theorem State.answerIllegal_gbh : (s.answerIllegal).gbh = s.gbh := rfl
@[simp] theorem State.answerIllegal_predictions : (s.answerIllegal).predictions = s.predictions := rfl
@[simp] theorem State.answerIllegal_mispredictions : (s.answerIllegal).mispredictions = s.mispredictions := rfl
@[simp] theorem State.answerIllegal_ovf : (s.answerIllegal).ovf = s.ovf := rfl
@[simp] theorem State.answerIllegal_inputs : (s.answerIllegal).inputs = s.inputs := rfl
@[simp] theorem State.answerIllegal_rsp : (s.answerIllegal).rsp = some (Response.illegal s.ovf) := rfl

@[simp] theorem State.applyReset_cfg : (s.applyReset).cfg = s.cfg := rfl
@[simp] theorem State.applyReset_pht : (s.applyReset).pht = [] := rfl
@[simp] theorem State.applyReset_gbh : (s.applyReset).gbh = 0 := rfl
@[simp] theorem State.applyReset_predictions : (s.applyReset).predictions = 0 := rfl
@[simp] theorem State.applyReset_mispredictions : (s.applyReset).mispredictions = 0 := rfl
@[simp] theorem State.applyReset_ovf : (s.applyReset).ovf = false := rfl
@[simp] theorem State.applyReset_inputs : (s.applyReset).inputs = s.inputs := rfl
@[simp] theorem State.applyReset_rsp : (s.applyReset).rsp = none := rfl

@[simp] theorem State.offer_cfg (input : Input) : (s.offer input).cfg = s.cfg := rfl
@[simp] theorem State.offer_pht (input : Input) : (s.offer input).pht = s.pht := rfl
@[simp] theorem State.offer_gbh (input : Input) : (s.offer input).gbh = s.gbh := rfl
@[simp] theorem State.offer_predictions (input : Input) : (s.offer input).predictions = s.predictions := rfl
@[simp] theorem State.offer_mispredictions (input : Input) : (s.offer input).mispredictions = s.mispredictions := rfl
@[simp] theorem State.offer_ovf (input : Input) : (s.offer input).ovf = s.ovf := rfl
@[simp] theorem State.offer_inputs (input : Input) : (s.offer input).inputs = s.inputs ++ [input] := rfl
@[simp] theorem State.offer_rsp (input : Input) : (s.offer input).rsp = s.rsp := rfl

@[simp] theorem State.accept_cfg : (s.accept).cfg = s.cfg := rfl
@[simp] theorem State.accept_pht : (s.accept).pht = s.pht := rfl
@[simp] theorem State.accept_gbh : (s.accept).gbh = s.gbh := rfl
@[simp] theorem State.accept_predictions : (s.accept).predictions = s.predictions := rfl
@[simp] theorem State.accept_mispredictions : (s.accept).mispredictions = s.mispredictions := rfl
@[simp] theorem State.accept_ovf : (s.accept).ovf = s.ovf := rfl
@[simp] theorem State.accept_inputs : (s.accept).inputs = s.inputs.tail := rfl
@[simp] theorem State.accept_rsp : (s.accept).rsp = s.rsp := rfl

@[simp] theorem State.idle_cfg : (s.idle).cfg = s.cfg := rfl
@[simp] theorem State.idle_pht : (s.idle).pht = s.pht := rfl
@[simp] theorem State.idle_gbh : (s.idle).gbh = s.gbh := rfl
@[simp] theorem State.idle_predictions : (s.idle).predictions = s.predictions := rfl
@[simp] theorem State.idle_mispredictions : (s.idle).mispredictions = s.mispredictions := rfl
@[simp] theorem State.idle_ovf : (s.idle).ovf = s.ovf := rfl
@[simp] theorem State.idle_inputs : (s.idle).inputs = s.inputs := rfl
@[simp] theorem State.idle_rsp : (s.idle).rsp = none := rfl

@[simp] theorem State.incPredictions_cfg : (s.incPredictions).cfg = s.cfg := rfl
@[simp] theorem State.incPredictions_pht : (s.incPredictions).pht = s.pht := rfl
@[simp] theorem State.incPredictions_gbh : (s.incPredictions).gbh = s.gbh := rfl
@[simp] theorem State.incPredictions_predictions : (s.incPredictions).predictions = incValue s.cfg.cntW s.predictions := rfl
@[simp] theorem State.incPredictions_mispredictions : (s.incPredictions).mispredictions = s.mispredictions := rfl
@[simp] theorem State.incPredictions_ovf : (s.incPredictions).ovf = (s.ovf || !hasRoom s.cfg.cntW s.predictions) := rfl
@[simp] theorem State.incPredictions_inputs : (s.incPredictions).inputs = s.inputs := rfl
@[simp] theorem State.incPredictions_rsp : (s.incPredictions).rsp = s.rsp := rfl

@[simp] theorem State.incMispredictions_cfg : (s.incMispredictions).cfg = s.cfg := rfl
@[simp] theorem State.incMispredictions_pht : (s.incMispredictions).pht = s.pht := rfl
@[simp] theorem State.incMispredictions_gbh : (s.incMispredictions).gbh = s.gbh := rfl
@[simp] theorem State.incMispredictions_predictions : (s.incMispredictions).predictions = s.predictions := rfl
@[simp] theorem State.incMispredictions_mispredictions : (s.incMispredictions).mispredictions = incValue s.cfg.cntW s.mispredictions := rfl
@[simp] theorem State.incMispredictions_ovf : (s.incMispredictions).ovf = (s.ovf || !hasRoom s.cfg.cntW s.mispredictions) := rfl
@[simp] theorem State.incMispredictions_inputs : (s.incMispredictions).inputs = s.inputs := rfl
@[simp] theorem State.incMispredictions_rsp : (s.incMispredictions).rsp = s.rsp := rfl

@[simp] theorem State.countMisprediction_cfg (mis : Bool) : (s.countMisprediction mis).cfg = s.cfg := by
  cases mis <;> simp [State.countMisprediction]
@[simp] theorem State.countMisprediction_pht (mis : Bool) : (s.countMisprediction mis).pht = s.pht := by
  cases mis <;> simp [State.countMisprediction]
@[simp] theorem State.countMisprediction_gbh (mis : Bool) : (s.countMisprediction mis).gbh = s.gbh := by
  cases mis <;> simp [State.countMisprediction]
@[simp] theorem State.countMisprediction_predictions (mis : Bool) : (s.countMisprediction mis).predictions = s.predictions := by
  cases mis <;> simp [State.countMisprediction]
@[simp] theorem State.countMisprediction_mispredictions (mis : Bool) : (s.countMisprediction mis).mispredictions = if mis then incValue s.cfg.cntW s.mispredictions else s.mispredictions := by
  cases mis <;> simp [State.countMisprediction]
@[simp] theorem State.countMisprediction_ovf (mis : Bool) : (s.countMisprediction mis).ovf = (s.ovf || (mis && !hasRoom s.cfg.cntW s.mispredictions)) := by
  cases mis <;> simp [State.countMisprediction]
@[simp] theorem State.countMisprediction_inputs (mis : Bool) : (s.countMisprediction mis).inputs = s.inputs := by
  cases mis <;> simp [State.countMisprediction]
@[simp] theorem State.countMisprediction_rsp (mis : Bool) : (s.countMisprediction mis).rsp = s.rsp := by
  cases mis <;> simp [State.countMisprediction]

/-! The fields of the four responses. -/

@[simp] theorem Response.blank_status (ovf : Bool) :
    (Response.blank ovf).status = .ok := rfl
@[simp] theorem Response.blank_ovf (ovf : Bool) :
    (Response.blank ovf).ovf = ovf := rfl
@[simp] theorem Response.blank_predTaken (ovf : Bool) :
    (Response.blank ovf).predTaken = false := rfl
@[simp] theorem Response.blank_mispredict (ovf : Bool) :
    (Response.blank ovf).mispredict = false := rfl
@[simp] theorem Response.blank_idxOut (ovf : Bool) :
    (Response.blank ovf).idxOut = 0 := rfl
@[simp] theorem Response.blank_predCount (ovf : Bool) :
    (Response.blank ovf).predCount = 0 := rfl
@[simp] theorem Response.blank_mispredCount (ovf : Bool) :
    (Response.blank ovf).mispredCount = 0 := rfl

@[simp] theorem Response.illegal_status (ovf : Bool) :
    (Response.illegal ovf).status = .illegalCmd := rfl
@[simp] theorem Response.illegal_ovf (ovf : Bool) :
    (Response.illegal ovf).ovf = ovf := rfl
@[simp] theorem Response.illegal_predTaken (ovf : Bool) :
    (Response.illegal ovf).predTaken = false := rfl
@[simp] theorem Response.illegal_mispredict (ovf : Bool) :
    (Response.illegal ovf).mispredict = false := rfl
@[simp] theorem Response.illegal_idxOut (ovf : Bool) :
    (Response.illegal ovf).idxOut = 0 := rfl
@[simp] theorem Response.illegal_predCount (ovf : Bool) :
    (Response.illegal ovf).predCount = 0 := rfl
@[simp] theorem Response.illegal_mispredCount (ovf : Bool) :
    (Response.illegal ovf).mispredCount = 0 := rfl

@[simp] theorem Response.direction_status (ovf pred mis : Bool) (idx : Nat) :
    (Response.direction ovf pred mis idx).status = .ok := rfl
@[simp] theorem Response.direction_ovf (ovf pred mis : Bool) (idx : Nat) :
    (Response.direction ovf pred mis idx).ovf = ovf := rfl
@[simp] theorem Response.direction_predTaken (ovf pred mis : Bool) (idx : Nat) :
    (Response.direction ovf pred mis idx).predTaken = pred := rfl
@[simp] theorem Response.direction_mispredict (ovf pred mis : Bool) (idx : Nat) :
    (Response.direction ovf pred mis idx).mispredict = mis := rfl
@[simp] theorem Response.direction_idxOut (ovf pred mis : Bool) (idx : Nat) :
    (Response.direction ovf pred mis idx).idxOut = idx := rfl
@[simp] theorem Response.direction_predCount (ovf pred mis : Bool) (idx : Nat) :
    (Response.direction ovf pred mis idx).predCount = 0 := rfl
@[simp] theorem Response.direction_mispredCount (ovf pred mis : Bool) (idx : Nat) :
    (Response.direction ovf pred mis idx).mispredCount = 0 := rfl

@[simp] theorem Response.counts_status (ovf : Bool) (p m : Nat) :
    (Response.counts ovf p m).status = .ok := rfl
@[simp] theorem Response.counts_ovf (ovf : Bool) (p m : Nat) :
    (Response.counts ovf p m).ovf = ovf := rfl
@[simp] theorem Response.counts_predTaken (ovf : Bool) (p m : Nat) :
    (Response.counts ovf p m).predTaken = false := rfl
@[simp] theorem Response.counts_mispredict (ovf : Bool) (p m : Nat) :
    (Response.counts ovf p m).mispredict = false := rfl
@[simp] theorem Response.counts_idxOut (ovf : Bool) (p m : Nat) :
    (Response.counts ovf p m).idxOut = 0 := rfl
@[simp] theorem Response.counts_predCount (ovf : Bool) (p m : Nat) :
    (Response.counts ovf p m).predCount = p := rfl
@[simp] theorem Response.counts_mispredCount (ovf : Bool) (p m : Nat) :
    (Response.counts ovf p m).mispredCount = m := rfl

end Sys2Proof.Machine
end

