-- ==== Sys2Proof/Laws/Ops.lean ====
section
/-! SUPPORT. What each shared operation does, said once: the PHT primitives, the counter, the history,
the index, the statistics, and the one list of what a command can do. -/

namespace Sys2Proof.Machine

variable {s t : State}

/-- A read of the table after an update of it, at the trained index. -/
theorem State.phtRead_update_same (h : Memory.wf s.cfg.phtSize s.pht) (i : Nat) (taken : Bool) :
    (s.update i taken).phtRead i = counterNext (s.phtRead i) taken := by
  simp [State.phtRead, Memory.read_write_same h]

/-- A read of the table after an update of it, at any other index. -/
theorem State.phtRead_update_other (s : State) {i j : Nat} (hij : j ≠ i) (taken : Bool) :
    (s.update i taken).phtRead j = s.phtRead j := by
  simp [State.phtRead, Memory.read_write_other _ hij]

/-- The clamped increment and decrement, in integers (R110). -/
theorem counterNext_toNat (c : Counter) (taken : Bool) :
    ((counterNext c taken).toNat : Int) =
      if taken then min 3 ((c.toNat : Int) + 1) else max 0 ((c.toNat : Int) - 1) := by
  revert c taken
  decide

/-- The next history in one expression, for N >= 1 (R115). -/
theorem historyNext_of_ne {n : Nat} (hn : n ≠ 0) (g : Nat) (taken : Bool) :
    historyNext n g taken = (g >>> 1) ||| (if taken then 1 <<< (n - 1) else 0) := by
  cases taken <;> simp [historyNext, hn]

@[simp] theorem historyNext_zero (g : Nat) (taken : Bool) : historyNext 0 g taken = g := rfl

/-- The next history stays N bits wide (R117). -/
theorem historyNext_lt {n g : Nat} (hg : g < 2 ^ n) (taken : Bool) :
    historyNext n g taken < 2 ^ n := by
  by_cases hn : n = 0
  · subst hn; simpa using hg
  · rw [historyNext_of_ne hn]
    refine Nat.or_lt_two_pow (by rw [Nat.shiftRight_eq_div_pow]; omega) ?_
    split
    · rw [Nat.one_shiftLeft]
      exact Nat.pow_lt_pow_right (by omega) (by omega)
    · exact Nat.two_pow_pos n

/-- A count stays in its width, and a smaller count stays at most a larger one (R31, R129). -/
theorem incValue_le_incValue (width : CntWidth) {a b : Nat} (h : a ≤ b) :
    incValue width a ≤ incValue width b := by
  cases width with
  | unbounded => simpa [incValue, hasRoom] using h
  | bits w =>
    simp only [incValue, hasRoom, decide_eq_true_eq]
    split <;> split <;> omega

/-- A count never falls. -/
theorem le_incValue (width : CntWidth) (c : Nat) : c ≤ incValue width c := by
  unfold incValue; split <;> omega

/-- A count that fits its width still fits after `Inc` (R129). -/
theorem fitsCounter_incValue {width : CntWidth} {c : Nat} (h : fitsCounter width c = true) :
    fitsCounter width (incValue width c) = true := by
  cases width with
  | unbounded => rfl
  | bits w =>
    simp only [fitsCounter, incValue, hasRoom, decide_eq_true_eq] at h ⊢
    split <;> omega

/-- The history term of the index, in ordinary arithmetic (R100). -/
theorem State.shiftedHistory_eq (s : State) :
    s.shiftedHistory = if s.cfg.n = 0 then 0 else s.gbh * 2 ^ (s.cfg.m - s.cfg.n) := by
  simp only [State.shiftedHistory, State.gbhRead, Nat.shiftLeft_eq]
  split <;> simp_all

/-- The index, in ordinary arithmetic (R100). -/
theorem State.index_eq (s : State) (addr : Nat) :
    s.index addr = (addr / 4 % 2 ^ s.cfg.m) ^^^
      (if s.cfg.n = 0 then 0 else s.gbh * 2 ^ (s.cfg.m - s.cfg.n)) := by
  rw [State.index, State.shiftedHistory_eq, pcBits, Nat.shiftRight_eq_div_pow]

/-- The history term stays below `2^M` when the history has N bits (R106). -/
theorem State.shiftedHistory_lt (h : s.gbh < 2 ^ s.cfg.n) : s.shiftedHistory < 2 ^ s.cfg.m := by
  rw [State.shiftedHistory_eq]
  split
  · exact Nat.two_pow_pos _
  · calc s.gbh * 2 ^ (s.cfg.m - s.cfg.n) < 2 ^ s.cfg.n * 2 ^ (s.cfg.m - s.cfg.n) :=
          Nat.mul_lt_mul_of_pos_right h (Nat.two_pow_pos _)
      _ = 2 ^ s.cfg.m := by rw [← Nat.pow_add, Nat.add_sub_cancel' s.cfg.n_le_m]

/-- The index reads only the parameters and the history. -/
theorem State.index_congr (hc : t.cfg = s.cfg) (hg : t.gbh = s.gbh) (addr : Nat) :
    t.index addr = s.index addr := by
  simp [State.index_eq, hc, hg]

@[simp] theorem State.index_incPredictions (s : State) (addr : Nat) :
    s.incPredictions.index addr = s.index addr := State.index_congr (by simp) (by simp) addr

@[simp] theorem State.predictRead_incPredictions (s : State) (i : Nat) :
    s.incPredictions.predictRead i = s.predictRead i := by
  simp [State.predictRead, State.phtRead]

/-- PROCESS_BRANCH in one equation: which fields it writes, and with what (R130). -/
theorem exec_processBranch (addr : Nat) (taken : Bool) (s : State) :
    exec (.processBranch addr taken) s =
      .next (finishBranch s.incPredictions (s.index addr) (s.predictRead (s.index addr)) taken) := by
  simp [exec, execProcessBranch]

section finishBranch

variable (u : State) (idx : Nat) (pred taken : Bool)

@[simp] theorem finishBranch_cfg : (finishBranch u idx pred taken).cfg = u.cfg := by
  simp [finishBranch]
@[simp] theorem finishBranch_pht : (finishBranch u idx pred taken).pht =
    u.pht.write idx (counterNext (u.phtRead idx) taken) := by
  simp [finishBranch, State.phtRead]
@[simp] theorem finishBranch_gbh : (finishBranch u idx pred taken).gbh =
    historyNext u.cfg.n u.gbh taken := by simp [finishBranch]
@[simp] theorem finishBranch_predictions :
    (finishBranch u idx pred taken).predictions = u.predictions := by simp [finishBranch]
@[simp] theorem finishBranch_mispredictions : (finishBranch u idx pred taken).mispredictions =
    if (pred != taken) then incValue u.cfg.cntW u.mispredictions else u.mispredictions := by
  simp [finishBranch]
@[simp] theorem finishBranch_ovf : (finishBranch u idx pred taken).ovf =
    (u.ovf || ((pred != taken) && !hasRoom u.cfg.cntW u.mispredictions)) := by
  simp [finishBranch]
@[simp] theorem finishBranch_inputs : (finishBranch u idx pred taken).inputs = u.inputs := by
  simp [finishBranch]
@[simp] theorem finishBranch_rsp : (finishBranch u idx pred taken).rsp =
    some (Response.direction (finishBranch u idx pred taken).ovf pred (pred != taken) idx) := by
  simp [finishBranch]

end finishBranch

/-- What a command can do, said once: it answers next, and the next state is that of one of four
cases. -/
theorem exec_cases (i : Instr) (s : State) :
    (∃ addr taken, i = .processBranch addr taken ∧ exec i s =
      .next (finishBranch s.incPredictions (s.index addr) (s.predictRead (s.index addr)) taken)) ∨
    (i = .rateQuery ∧ exec i s = .next (s.respond (Response.counts s.ovf s.predictions s.mispredictions))) ∨
    (∃ addr, i = .predict addr ∧ s.cfg.exposeSubops = true ∧ exec i s =
      .next (s.respond
        (Response.direction s.ovf (s.predictRead (s.index addr)) false (s.index addr)))) ∨
    (∃ idx taken, i = .update idx taken ∧ s.cfg.exposeSubops = true ∧ exec i s =
      .next ((s.update idx taken).respond (Response.blank s.ovf))) ∨
    (((∃ addr, i = .predict addr) ∨ ∃ idx taken, i = .update idx taken) ∧
      s.cfg.exposeSubops = false ∧ exec i s = .next s.answerIllegal) := by
  cases i with
  | processBranch addr taken => exact .inl ⟨addr, taken, rfl, exec_processBranch addr taken s⟩
  | rateQuery => exact .inr (.inl ⟨rfl, rfl⟩)
  | predict addr =>
    cases h : s.cfg.exposeSubops with
    | true => exact .inr (.inr (.inl ⟨addr, rfl, rfl, by simp [exec, execPredict, h]⟩))
    | false =>
      exact .inr (.inr (.inr (.inr ⟨.inl ⟨addr, rfl⟩, rfl, by simp [exec, execPredict, h]⟩)))
  | update idx taken =>
    cases h : s.cfg.exposeSubops with
    | true => exact .inr (.inr (.inr (.inl ⟨idx, taken, rfl, rfl, by simp [exec, execUpdate, h]⟩)))
    | false =>
      exact .inr (.inr (.inr (.inr ⟨.inr ⟨idx, taken, rfl⟩, rfl, by simp [exec, execUpdate, h]⟩)))

/-- No command faults or is refused (R180). -/
theorem exec_next (i : Instr) (s : State) : ∃ t, exec i s = .next t := by
  rcases exec_cases i s with ⟨_, _, _, h⟩ | ⟨_, h⟩ | ⟨_, _, _, h⟩ | ⟨_, _, _, _, h⟩ | ⟨_, _, h⟩ <;>
    exact ⟨_, h⟩

/-- No command writes a parameter or a held item. -/
theorem exec_keeps_ports {i : Instr} (h : exec i s = .next t) :
    t.cfg = s.cfg ∧ t.inputs = s.inputs := by
  rcases exec_cases i s with ⟨_, _, _, e⟩ | ⟨_, e⟩ | ⟨_, _, _, e⟩ | ⟨_, _, _, _, e⟩ | ⟨_, _, e⟩ <;>
    (rw [e] at h; cases h; simp)

end Sys2Proof.Machine
end

