-- ==== Sys2Proof/Laws/Step.lean ====
section
/-! SUPPORT. What one step can do, said once. -/

namespace Sys2Proof.Machine

variable {s t : State}

/-- The three ways a step answers next: nothing offered, a reset, or the command a word decodes to. -/
theorem step_cases (h : step s = .next t) :
    (s.inputs = [] ∧ t = s.idle) ∨
    (∃ rest, s.inputs = .reset :: rest ∧ t = s.accept.applyReset) ∨
    (∃ w rest i, s.inputs = .command w :: rest ∧ decode s.cfg w = .ok i ∧
      exec i s.accept = .next t) := by
  unfold step at h
  split at h
  · cases h
    exact .inl ⟨‹_›, rfl⟩
  · cases h
    exact .inr (.inl ⟨_, ‹_›, rfl⟩)
  · split at h
    · exact .inr (.inr ⟨_, _, _, ‹_›, ‹_›, h⟩)
    · cases h

/-- The invariant reads none of the ports: a state that agrees in the other fields has it too. -/
theorem State.Inv.congr (h : s.Inv) (hcfg : t.cfg = s.cfg) (hpht : t.pht = s.pht)
    (hgbh : t.gbh = s.gbh) (hp : t.predictions = s.predictions)
    (hm : t.mispredictions = s.mispredictions) (ho : t.ovf = s.ovf) : t.Inv where
  pht_wf := by rw [hcfg, hpht]; exact h.pht_wf
  gbh_lt := by rw [hcfg, hgbh]; exact h.gbh_lt
  mispredictions_le := by rw [hm, hp]; exact h.mispredictions_le
  predictions_fit := by rw [hcfg, hp]; exact h.predictions_fit
  ovf_saturated := by rw [hcfg, hp, ho]; exact h.ovf_saturated

/-- One more step of a run that answers next. -/
theorem runSteps_succ {k : Nat} (h : step s = .next t) : runSteps (k + 1) s = runSteps k t := by
  rw [runSteps, h]

/-- A run that answers next began with a step that did. -/
theorem runSteps_succ_next {k : Nat} (h : runSteps (k + 1) s = .next t) :
    ∃ u, step s = .next u ∧ runSteps k u = .next t := by
  rw [runSteps] at h
  cases hs : step s with
  | next u => exact ⟨u, rfl, by simpa [hs] using h⟩
  | fault e => simp [hs] at h
  | refused r => simp [hs] at h

/-- A run of `a + b` steps is a run of `b` steps after a run of `a`. -/
theorem runSteps_add {a : Nat} (b : Nat) (h : runSteps a s = .next t) :
    runSteps (a + b) s = runSteps b t := by
  induction a generalizing s with
  | zero => cases h; rw [Nat.zero_add]
  | succ a ih =>
    obtain ⟨u, hu, hr⟩ := runSteps_succ_next h
    rw [Nat.succ_add, runSteps_succ hu, ih hr]

/-- The first step of a host's run, for any machine. -/
theorem core_run_succ (M : Host.Core) (k : Nat) (a : M.State) :
    (∀ b, M.step a = .next b → M.run (k + 1) a = M.run k b) ∧
    (∀ e, M.step a = .fault e → M.run (k + 1) a = .fault e) ∧
    (∀ r, M.step a = .refused r → M.run (k + 1) a = .refused r) :=
  ⟨fun b h => by rw [Host.Core.run, h], fun e h => by rw [Host.Core.run, h],
    fun r h => by rw [Host.Core.run, h]⟩

/-- The host's run of the block is this run. -/
theorem core_run_eq_runSteps (k : Nat) (s : State) :
    Host.Core.run Sys2Proof.core k s = runSteps k s := by
  induction k generalizing s with
  | zero => rfl
  | succ k ih =>
    obtain ⟨hn, hf, hr⟩ := core_run_succ Sys2Proof.core k s
    rw [runSteps]
    cases hs : step s with
    | next t => exact (hn t hs).trans (ih t)
    | fault e => exact hf e hs
    | refused r => exact hr r hs

end Sys2Proof.Machine
end

