-- ==== Sys2Proof/Laws/Driver.lean ====
section
/-! SUPPORT. What the driver's functions can do, said once: issuing commands, and reading a trace. -/

namespace Sys2Proof.Machine

variable {s t : State}

/-- Taking the one item just offered to a block that holds nothing gives the block back. -/
theorem State.accept_offer (h : s.inputs = []) (input : Input) : (s.offer input).accept = s := by
  ext <;> simp [State.offer, State.accept, h]

/-- A command offered to a block that holds nothing is executed by the next step (R166, R210). -/
theorem step_offer_command {w : Nat} {i : Instr} (h : s.inputs = []) (hw : decode s.cfg w = .ok i) :
    step (s.offer (.command w)) = exec i s := by
  have hin : (s.offer (.command w)).inputs = [.command w] := by simp [State.offer, h]
  have hdec : decode (s.offer (.command w)).cfg w = .ok i := hw
  simp only [step, hin, hdec, State.accept_offer h]

/-- Issuing one more item, whose step answers next. -/
theorem issueAll_cons {input : Input} (rest : List Input) (h : step (s.offer input) = .next t) :
    issueAll (input :: rest) s = issueAll rest t := by
  rw [issueAll, h]

/-- Issuing items in two parts. -/
theorem issueAll_append {a : List Input} (b : List Input) (h : issueAll a s = .next t) :
    issueAll (a ++ b) s = issueAll b t := by
  induction a generalizing s with
  | nil => cases h; rfl
  | cons input a ih =>
    rw [issueAll] at h
    cases hs : step (s.offer input) with
    | next u => rw [List.cons_append, issueAll_cons _ hs, ih (by simpa [hs] using h)]
    | fault e => simp [hs] at h
    | refused r => simp [hs] at h

/-- When a trace is read, from its first line on: the rest is read, and the line is a branch or skipped. -/
theorem readLines_cons {k : Nat} {line : List Char} {lines : List (List Char)} {u : Trace} :
    readLines k (line :: lines) = .ok u ↔ ∃ v, readLines (k + 1) lines = .ok v ∧
      ((∃ a taken, lineVerdict line = .branch a taken ∧
          u = { v with branches := (a, taken) :: v.branches }) ∨
        (lineVerdict line = .skipped ∧ u = { v with warnings := k :: v.warnings })) := by
  rw [readLines]
  cases hv : lineVerdict line with
  | openHex => simp
  | openWhitespace => simp
  | branch a taken => cases readLines (k + 1) lines <;> cases taken <;> simp [eq_comm]
  | skipped => cases readLines (k + 1) lines <;> simp [eq_comm]

/-- The lines before a refusal do not hide it: a trace is refused where its first unreadable line is. -/
theorem readLines_append_error {k : Nat} {pre post : List (List Char)} {u : Trace} {r : Refusal}
    (hpre : readLines k pre = .ok u) (hpost : readLines (k + pre.length) post = .error r) :
    readLines k (pre ++ post) = .error r := by
  induction pre generalizing k u with
  | nil => exact hpost
  | cons line pre ih =>
    obtain ⟨v, hv, hline⟩ := readLines_cons.1 hpre
    have hrest := ih hv (by rw [← hpost, List.length_cons, Nat.add_right_comm, Nat.add_assoc])
    obtain ⟨a, taken, hb, _⟩ | ⟨hb, _⟩ := hline <;>
      simp only [List.cons_append, readLines, hb, hrest]

/-- Trimming drops nothing but blanks. -/
theorem mem_trimBlanks {cs : List Char} {c : Char} (hc : c ∈ cs) (hs : isSpace c = false)
    (ho : openSpace c = false) : c ∈ trimBlanks cs := by
  have keep : ∀ ds : List Char, c ∈ ds → c ∈ ds.dropWhile (fun d => isSpace d || openSpace d) := by
    intro ds hd
    rw [← List.takeWhile_append_dropWhile (p := fun d => isSpace d || openSpace d) (l := ds)] at hd
    rcases List.mem_append.1 hd with h | h
    · have := List.mem_takeWhile_imp h
      simp [hs, ho] at this
    · exact h
  exact List.mem_reverse.2 (keep _ (List.mem_reverse.2 (keep _ hc)))

/-- Dropping the sign drops nothing but a sign. -/
theorem mem_withoutSign {cs : List Char} {c : Char} (hc : c ∈ cs) (hm : c ≠ '-') (hp : c ≠ '+') :
    c ∈ withoutSign cs := by
  unfold withoutSign
  split
  · exact (List.mem_cons.1 hc).resolve_left hm
  · exact (List.mem_cons.1 hc).resolve_left hp
  · exact hc

/-- Dropping the minus sign drops nothing else. -/
theorem mem_withoutMinus {cs : List Char} {c : Char} (hc : c ∈ cs) (hm : c ≠ '-') :
    c ∈ withoutMinus cs := by
  unfold withoutMinus
  split
  · exact (List.mem_cons.1 hc).resolve_left hm
  · exact hc

/-- A text whose decimal value is read holds ASCII digits only. -/
theorem isAsciiDigit_of_decimalValueFrom {cs : List Char} {acc v : Nat} {c : Char}
    (h : decimalValueFrom acc cs = some v) (hc : c ∈ cs) : isAsciiDigit c = true := by
  induction cs generalizing acc with
  | nil => simp at hc
  | cons d cs ih =>
    rw [decimalValueFrom] at h
    split at h
    · rcases List.mem_cons.1 hc with rfl | hc
      · simpa [isAsciiDigit] using ‹_›
      · exact ih h hc
    · cases h

/-- A text with a character that stands in no spelling of an integer has no decimal value and is no open
spelling, so it is a non-integer. -/
theorem integerArg_eq_none {cs : List Char} {c : Char} (h : mayStandInInteger c = false)
    (hc : c ∈ cs) : integerArg cs = none := by
  simp only [mayStandInInteger, Bool.or_eq_false_iff, beq_eq_false_iff_ne] at h
  obtain ⟨⟨⟨⟨⟨hdigit, hminus⟩, hplus⟩, hunder⟩, hs⟩, ho⟩ := h
  have hascii : isAsciiDigit c = false := (Bool.or_eq_false_iff.1 hdigit).1
  have hvalue : ∀ ds : List Char, c ∈ ds → decimalValue ds = none := by
    intro ds hd
    unfold decimalValue
    split
    · rfl
    · cases hv : decimalValueFrom 0 ds with
      | none => rfl
      | some v => simp [isAsciiDigit_of_decimalValueFrom hv hd] at hascii
  have hopen : isOpenInteger cs = false := by
    have hmem := mem_withoutSign (mem_trimBlanks hc hs ho) hminus hplus
    refine Bool.and_eq_false_iff.2 (.inl (List.all_eq_false.2 ⟨c, hmem, ?_⟩))
    simp [hdigit, hunder]
  simp only [integerArg, hvalue _ (mem_withoutMinus hc hminus), hopen, Bool.false_eq_true, if_false]

end Sys2Proof.Machine
end

