-- ==== Sys2Proof/Laws/PerInstr.lean ====
section
/-! SUPPORT. Per-command facts about commands as syntax. Family `EncodesInWidth`: the word of a
well-formed command has `CMD_W` bits and carries the command's opcode (R70, R79). -/

namespace Sys2Proof.Laws.EncodesInWidth

/-- The op field of each command (R79). -/
def opcodeOf : Instr → Nat
  | .processBranch _ _ => 0
  | .rateQuery => 1
  | .predict _ => 2
  | .update _ _ => 3

/-- The word of a well-formed command has `CMD_W` bits and the command's opcode. -/
def Statement (i : Instr) : Prop :=
  ∀ cfg : Config, i.wellFormed cfg = true →
    encode cfg i < 2 ^ cfg.cmdW ∧ opField (encode cfg i) = opcodeOf i

theorem processBranch (addr : Nat) (taken : Bool) : Statement (.processBranch addr taken) :=
  fun _ h => ⟨assembleFields_lt (by decide) taken (by simpa [Instr.wellFormed] using h)
    (Nat.two_pow_pos _), opField_assembleFields (by decide) taken addr 0⟩

theorem rateQuery : Statement .rateQuery :=
  fun _ _ => ⟨assembleFields_lt (by decide) false (Nat.two_pow_pos _) (Nat.two_pow_pos _),
    opField_assembleFields (by decide) false 0 0⟩

theorem predict (addr : Nat) : Statement (.predict addr) :=
  fun _ h => ⟨assembleFields_lt (by decide) false (by simpa [Instr.wellFormed] using h)
    (Nat.two_pow_pos _), opField_assembleFields (by decide) false addr 0⟩

theorem update (idx : Nat) (taken : Bool) : Statement (.update idx taken) :=
  fun _ h => ⟨assembleFields_lt (by decide) taken (Nat.two_pow_pos _)
    (of_decide_eq_true h),
    opField_assembleFields (by decide) taken 0 idx⟩

end Sys2Proof.Laws.EncodesInWidth
end

