-- ==== Sys2Proof/Tests/Slice0.lean ====
section
/-! SUPPORT. The model's own tests, with expected results from spec/95_test_vectors.md and
spec/30_encoding.md, and for each statement with hypotheses a witness that they can be met together. -/

namespace Sys2Proof.Tests

open Sys2Proof Sys2Proof.Machine

/-- An instance for a test. -/
def instanceOf (m n : Nat) (cntW : CntWidth) (exposeSubops : Bool) (hm : 1 ≤ m := by decide)
    (hn : n ≤ m := by decide)
    (ha : m + 2 ≤ 32 := by decide) (hc : cntW.legal = true := by decide) : Config where
  m := m
  n := n
  addrW := 32
  cntW := cntW
  exposeSubops := exposeSubops
  m_pos := hm
  n_le_m := hn
  addrW_wide := ha
  cntW_legal := hc

/-- A state for a test: an instance's reset state with a table, a history and one offered word. -/
def stateOf (cfg : Config) (pht : Memory) (gbh word : Nat) : State :=
  { State.resetOf cfg with pht := pht, gbh := gbh, inputs := [.command word] }

/-- A property of the next state of one step, false of a stop. -/
def afterStep (s : State) (p : State → Bool) : Bool :=
  match step s with
  | .next t => p t
  | .fault _ => false
  | .refused _ => false

/-! ## Well-formedness: an ill-formed term for each check -/

theorem test_wellFormed_refuses_wide_branch_address :
    (Instr.processBranch (2 ^ 32) true).wellFormed Config.default = false := by decide
theorem test_wellFormed_refuses_wide_predict_address :
    (Instr.predict (2 ^ 32)).wellFormed Config.default = false := by decide
theorem test_wellFormed_refuses_index_outside_table :
    (Instr.update 16 true).wellFormed Config.default = false := by decide
theorem test_wellFormed_admits_largest_operands :
    (Instr.processBranch (2 ^ 32 - 1) true).wellFormed Config.default = true ∧
    (Instr.update 15 false).wellFormed Config.default = true := by decide

/-! ## Decoding: words written out field by field, idx, addr, taken, op (R70) -/

/-- M = 2: `process_branch 0x4, n`, word 0x20 (30_encoding.md section 5). -/
theorem test_decode_process_branch :
    decode (instanceOf 2 2 .unbounded false)
      0b00_00000000000000000000000000000100_0_00 = .ok (.processBranch 0x4 false) := by decide
/-- M = 4: `process_branch 0xffffffff, t`, word 0x7fffffffc. -/
theorem test_decode_process_branch_all_ones :
    decode Config.default
      0b0000_11111111111111111111111111111111_1_00 = .ok (.processBranch 0xffffffff true) := by
  decide
/-- M = 2: `rate_query`, word 0x1; and with every ignored bit set (R75). -/
theorem test_decode_rate_query :
    decode (instanceOf 2 2 .unbounded false)
      0b00_00000000000000000000000000000000_0_01 = .ok .rateQuery ∧
    decode (instanceOf 2 2 .unbounded false)
      0b11_11111111111111111111111111111111_1_01 = .ok .rateQuery := by decide
/-- M = 3: `predict 0x104`, word 0x822. -/
theorem test_decode_predict :
    decode (instanceOf 3 2 .unbounded true)
      0b000_00000000000000000000000100000100_0_10 = .ok (.predict 0x104) := by decide
/-- M = 3: `update 5, n`, word 0x2800000003; M = 2: `update 3, t`, word 0x1800000007. -/
theorem test_decode_update :
    decode (instanceOf 3 2 .unbounded true)
      0b101_00000000000000000000000000000000_0_11 = .ok (.update 5 false) ∧
    decode (instanceOf 2 2 .unbounded true)
      0b11_00000000000000000000000000000000_1_11 = .ok (.update 3 true) := by decide
/-- One bit too many is no command word (log 8). -/
theorem test_decode_refuses_wide_word :
    decode Config.default (2 ^ 39) = .error .notACommandWord := by decide
/-- The worked words of 30_encoding.md section 5 are what the encoder gives. -/
theorem test_encode_worked_words :
    encode (instanceOf 3 2 .unbounded true) (.predict 0x104) = 0x822 ∧
    encode (instanceOf 3 2 .unbounded true) (.update 5 false) = 0x2800000003 ∧
    encode Config.default (.processBranch 0xffffffff true) = 0x7fffffffc := by decide
/-- The assembler's words of 30_encoding.md section 5 (R82), and an index it rejects. -/
theorem test_assemble :
    assemble (instanceOf 3 2 .unbounded true) "update 5, n".toList = some (.update 5 false) ∧
    assemble Config.default "process_branch 0xffffffff,T".toList =
      some (.processBranch 0xffffffff true) ∧
    assemble Config.default "update 16, t".toList = none := by decide
theorem test_table_words_decode :
    decodeTableWord 8 0 = some (.processBranch 0 false) ∧ decodeTableWord 8 1 = some .rateQuery ∧
    decodeTableWord 8 2 = some (.predict 0) ∧ decodeTableWord 8 3 = some (.update 0 false) := by
  decide

/-! ## One step of each command -/

/-- V-PB, case N=M: GBH 0110, PHT[9] = 2 gives pred 1, mis 0, idx 9, PHT[9] = 3, GBH 1011. -/
theorem test_process_branch_full_history :
    afterStep (stateOf (instanceOf 4 4 .unbounded false) [] 0b0110 0x7fffffffc) (fun t =>
      t.phtRead 9 = 3 && t.gbh = 0b1011 && t.predictions = 1 && t.mispredictions = 0 &&
      t.rsp = some ⟨.ok, false, true, false, 9, 0, 0⟩) = true := by decide
/-- V-O step 4: CNT_W = 2, counts (3, 3), PHT[0] = 2, taken: the count is held and `ovf` set. -/
theorem test_process_branch_saturates :
    afterStep { stateOf (instanceOf 1 1 (.bits 2) false) [] 0 0x4 with
        predictions := 3, mispredictions := 3 } (fun t =>
      t.predictions = 3 && t.mispredictions = 3 && t.ovf && t.phtRead 0 = 3 && t.gbh = 1) = true := by
  decide
/-- S-A step 3: the counts (2, 0); with CNT_W = 8 and M = 1 the response word is 0x80. -/
theorem test_rate_query :
    afterStep { stateOf (instanceOf 1 0 (.bits 8) false) [(0, 3)] 0 0x1 with predictions := 2 }
      (fun t => (t.rsp.bind (fun r => r.pack t.cfg)) = some 0x80 && t.predictions = 2) = true := by
  decide
/-- R140's worked example: M = 3, N = 2, GBH 10, PHT[5] = 2: idx_out 5, pred_taken 1. -/
theorem test_predict :
    afterStep (stateOf (instanceOf 3 2 .unbounded true) [] 0b10 0x822) (fun t =>
      t.rsp = some ⟨.ok, false, true, false, 5, 0, 0⟩ && t.gbh = 2 && t.predictions = 0) = true := by
  decide
/-- V-X: `predict 0x8`, word 0x42, with EXPOSE_SUBOPS = false: RSP 0x1 at CNT_W = 8. -/
theorem test_predict_illegal :
    afterStep (stateOf (instanceOf 2 1 (.bits 8) false) [] 0 0x42) (fun t =>
      (t.rsp.bind (fun r => r.pack t.cfg)) = some 0x1) = true := by decide
/-- V-S: `update 3, t` on a fresh engine, M = 2, N = 2: PHT[3] = 3, GBH 10, nothing counted. -/
theorem test_update :
    afterStep (stateOf (instanceOf 2 2 .unbounded true) [] 0 0x1800000007) (fun t =>
      t.phtRead 3 = 3 && t.gbh = 0b10 && t.predictions = 0 &&
      t.rsp = some ⟨.ok, false, false, false, 0, 0, 0⟩) = true := by decide
/-- V-X: `update 3, t` with EXPOSE_SUBOPS = false: unchanged, PHT[3] still 2, GBH still 0. -/
theorem test_update_illegal :
    afterStep (stateOf (instanceOf 2 1 .unbounded false) [] 0 0x1800000007) (fun t =>
      t.phtRead 3 = 2 && t.gbh = 0 &&
      t.rsp = some ⟨.illegalCmd, false, false, false, 0, 0, 0⟩) = true := by decide
/-- Reset gives back every value of R34 to R36, and keeps what is held behind it (R200, R201). -/
theorem test_reset_step :
    afterStep { State.resetOf (instanceOf 2 2 .unbounded true) with
        pht := [(3, 0)], gbh := 3, predictions := 5, mispredictions := 4, ovf := true,
        inputs := [.reset, .command 1] } (fun t =>
      t = { State.resetOf (instanceOf 2 2 .unbounded true) with inputs := [.command 1] }) = true := by
  decide

/-! ## Operations, the rate and the driver -/

/-- V-C, all eight rows. -/
theorem test_counter_table :
    [counterNext 0 false, counterNext 0 true, counterNext 1 false, counterNext 1 true,
      counterNext 2 false, counterNext 2 true, counterNext 3 false, counterNext 3 true] =
    [0, 1, 0, 2, 1, 3, 2, 3] := by decide
/-- V-H, rows of N = 0, 1, 2 and 4. -/
theorem test_history_table :
    historyNext 0 0 true = 0 ∧ historyNext 1 1 false = 0 ∧ historyNext 2 0b01 true = 0b10 ∧
    historyNext 2 0b11 false = 0b01 ∧ historyNext 4 0b1100 false = 0b0110 ∧
    historyNext 4 0b0110 true = 0b1011 := by decide
/-- V-I, the rows (4, 1), (3, 3), (2, 1) and (3, 0). -/
theorem test_index_vectors :
    (stateOf (instanceOf 4 1 .unbounded false) [] 1 0).index 0x2c = 3 ∧
    (stateOf (instanceOf 3 3 .unbounded false) [] 7 0).index 0x1c = 0 ∧
    (stateOf (instanceOf 2 1 .unbounded false) [] 1 0).index 0x40 = 2 ∧
    (stateOf (instanceOf 3 0 .unbounded false) [] 0 0).index 0x23 = 0 := by decide
/-- V-R, the cases that tell binary64 from exact rounding. -/
theorem test_printed_rates :
    twoDecimals (rate64 160 23) = "14.37".toList ∧ twoDecimals (rate64 160 49) = "30.63".toList ∧
    twoDecimals (rate64 32 1) = "3.12".toList ∧ twoDecimals (rate64 32 3) = "9.38".toList ∧
    twoDecimals (rate64 1 1) = "100.00".toList ∧ twoDecimals (rate64 2000 1) = "0.05".toList := by
  decide
/-- V-D. -/
theorem test_trace_lines :
    lineVerdict "00000004 N".toList = .branch 4 false ∧
    lineVerdict "  40\tn  ".toList = .branch 0x40 false ∧
    lineVerdict "1f T extra fields".toList = .branch 0x1f true ∧
    lineVerdict "0x40 t".toList = .branch 0x40 true ∧
    lineVerdict "xyz t".toList = .skipped ∧ lineVerdict "0040".toList = .skipped ∧
    lineVerdict [] = .skipped ∧ lineVerdict "0040 taken".toList = .skipped ∧
    lineVerdict "-40 t".toList = .openHex ∧ lineVerdict "4_0".toList = .openHex ∧
    lineVerdict "ghi t".toList = .openHex := by decide
/-- R161: a text with letters is a non-integer. R162: M = 0 fails whatever N reads as. -/
theorem test_integer_arguments :
    integerArg "foo_bar".toList = none ∧ integerArg "a+b".toList = none ∧
    integerArg "2.0".toList = none ∧ integerArg "".toList = none ∧ integerArg "12".toList = some 12 ∧
    isOpenInteger "+1".toList = true ∧ isOpenInteger " 1".toList = true ∧
    integerArg "é".toList = none ∧ integerArg "1é".toList = none ∧
    isOpenInteger "٣".toList = true := by decide

/-- The result line of a run over a trace text. -/
def resultOf (base : Config) (m n text : String) : Option (List Char) :=
  match driverRun ⟨1, by decide⟩ base ["gshare".toList, m.toList, n.toList, "trace".toList]
      ⟨text.toList, false⟩ with
  | .next r => r.result
  | .fault _ => none
  | .refused _ => none

/-- S-A, S-B and S-C: `1 0 0.00`, `2 2 100.00`, and no line for M = 0. -/
theorem test_driver_scenarios :
    resultOf Config.default "1" "0" "00000000 t\n00000000 t\n" = some "1 0 0.00".toList ∧
    resultOf Config.default "2" "2" "00000004 n" = some "2 2 100.00".toList ∧
    resultOf Config.default "0" "0" "00000004 n" = none := by decide
/-- P2: `3 2 16.67`. -/
theorem test_driver_two_branches :
    resultOf Config.default "3" "2"
      "00000100 t\n00000104 n\n00000100 t\n00000104 n\n00000100 t\n00000104 n\n" =
    some "3 2 16.67".toList := by decide
/-- The reader of response words faults on a reserved status (I5). -/
theorem test_reserved_status_faults :
    Response.unpack 2 8 2 = .error .reservedStatus ∧ Response.unpack 2 8 3 = .error .reservedStatus := by
  decide

/-! ## Witnesses: the hypotheses of each statement that has some, met together -/

/-- M = 3, N = 2, 8-bit counters, sub-operations exposed. -/
def sampleConfig : Config := instanceOf 3 2 (.bits 8) true

/-- A state inside a run: PHT[5] = 1, GBH 10, one misprediction in two branches. -/
def sample : State :=
  { State.resetOf sampleConfig with
    pht := [(5, 1)], gbh := 2, predictions := 2, mispredictions := 1 }

/-- The sample with given held items. -/
def sampleWith (inputs : List Input) : State := { sample with inputs := inputs }

theorem sample_inv : sample.Inv :=
  ⟨by decide, by decide, by decide, by decide, by decide⟩

theorem witness_ResetFillsTableAndClearsHistory : ∃ (cfg : Config) (i : Nat), i < 2 ^ cfg.m :=
  ⟨sampleConfig, 7, by decide⟩
theorem witness_StepKeepsInvariant :
    ∃ s t : State, s.Inv ∧ step s = .next t ∧ t.phtRead 5 ≠ s.phtRead 5 :=
  ⟨sampleWith [.command 0x824], _, sample_inv.congr rfl rfl rfl rfl rfl rfl, rfl, by decide⟩
theorem witness_ReachableStatesStayInBounds :
    ∃ s : State, Reachable sampleConfig s ∧ s.predictions = 1 ∧ 2 ^ sampleConfig.m ≤ 8 :=
  ⟨_, .step (.offer .reset (.command 0x824)) rfl, rfl, by decide⟩
theorem witness_ReachableStates_unbounded :
    Reachable Config.default State.reset ∧ Config.default.cntW = .unbounded := ⟨.reset, rfl⟩
theorem witness_StepExecutesDecodedCommand :
    ∃ (s : State) (w : Nat) (rest : List Input) (i : Instr), s.inputs = .command w :: rest ∧ decode s.cfg w = .ok i :=
  ⟨sampleWith [.command 0x822, .reset], 0x822, [.reset], .predict 0x104, rfl, rfl⟩
theorem witness_StepAppliesReset : ∃ (s : State) (rest : List Input), s.inputs = .reset :: rest :=
  ⟨sampleWith [.reset, .command 1], [.command 1], rfl⟩
theorem witness_StepIdleKeepsState : ∃ s : State, s.inputs = [] := ⟨sample, rfl⟩
/-- Both clauses, at the two numbers where they meet. -/
theorem witness_StepRefusesExactlyOverwideNumbers :
    (∃ (s : State) (w : Nat) (rest : List Input), s.inputs = .command w :: rest ∧
      2 ^ (3 + s.cfg.addrW + s.cfg.m) ≤ w) ∧
    (∃ (s : State) (w : Nat) (rest : List Input), s.inputs = .command w :: rest ∧
      w < 2 ^ (3 + s.cfg.addrW + s.cfg.m)) :=
  ⟨⟨sampleWith [.command (2 ^ 38)], 2 ^ 38, [], rfl, by decide⟩,
    ⟨sampleWith [.command (2 ^ 38 - 1)], 2 ^ 38 - 1, [], rfl, by decide⟩⟩
/-- Each op, the last at the largest word. -/
theorem witness_OpFieldSelectsCommand : ∀ r : Fin 4,
    2 ^ 38 - 4 + r.val < 2 ^ (3 + sampleConfig.addrW + sampleConfig.m) ∧
    (2 ^ 38 - 4 + r.val) % 4 = r.val := by decide
/-- Each command, with its largest operand. -/
theorem witness_DecodeInvertsEncode :
    (Instr.processBranch (2 ^ 32 - 1) true).wellFormed sampleConfig = true ∧
    Instr.rateQuery.wellFormed sampleConfig = true ∧
    (Instr.predict (2 ^ 32 - 1)).wellFormed sampleConfig = true ∧
    (Instr.update 7 true).wellFormed sampleConfig = true ∧
    ∃ i, decode sampleConfig (2 ^ 38 - 1) = .ok i :=
  ⟨by decide, by decide, by decide, by decide, .update 7 true, rfl⟩
/-- For each op two different words that agree in the read fields. -/
theorem witness_UnreadFieldsAreIgnored :
    let low := sampleConfig.addrW + 3
    ((0x824 + 2 ^ low) % 4 = 0x824 % 4 ∧
      (0x824 + 2 ^ low) / 4 % 2 ^ (sampleConfig.addrW + 1) =
        0x824 / 4 % 2 ^ (sampleConfig.addrW + 1)) ∧
    (0x825 % 4 = 0x1 % 4 ∧ 0x825 % 4 = 1) ∧
    (0x826 % 4 = 0x822 % 4 ∧ 0x826 / 8 % 2 ^ sampleConfig.addrW =
      0x822 / 8 % 2 ^ sampleConfig.addrW) ∧
    (0x82b % 4 = 0x3 % 4 ∧ 0x82b / 4 % 2 = 0x3 / 4 % 2 ∧ 0x82b / 2 ^ low = 0x3 / 2 ^ low) := by
  decide
theorem witness_WorkedEncodingsDecode : ∀ m : Fin 4, ∃ cfg : Config, cfg.addrW = 32 ∧
    cfg.m = m.val + 1 := fun m =>
  ⟨⟨m.val + 1, 0, 32, .unbounded, false, by omega, by omega, by omega, rfl⟩, rfl, rfl⟩
theorem witness_ProcessBranchTrainsAndCounts :
    Memory.wf sample.cfg.phtSize sample.pht ∧
    5 = (0x104 / 4 % 2 ^ sample.cfg.m) ^^^
      (if sample.cfg.n = 0 then 0 else sample.gbh * 2 ^ (sample.cfg.m - sample.cfg.n)) ∧
    false = decide (2 ≤ (sample.phtRead 5).toNat) ∧ true = xor false true ∧
    true = (match sample.cfg.cntW with
      | .unbounded => true
      | .bits w => decide (sample.predictions < 2 ^ w - 1)) := by decide
theorem witness_PredictAnswersPrediction :
    5 = (0x104 / 4 % 2 ^ sample.cfg.m) ^^^
      (if sample.cfg.n = 0 then 0 else sample.gbh * 2 ^ (sample.cfg.m - sample.cfg.n)) := by decide
theorem witness_UpdateTrainsWithoutCounting :
    (Memory.wf sample.cfg.phtSize sample.pht ∧ sample.cfg.exposeSubops = true) ∧
    State.reset.cfg.exposeSubops = false := by decide
/-- Op 10 and op 11. -/
theorem witness_IllegalCommandsAreInert :
    ∃ s : State, s.inputs = [.command 0x42, .command 0x1800000007] ∧
      0x1800000007 < 2 ^ (3 + s.cfg.addrW + s.cfg.m) ∧ 2 ≤ 0x42 % 4 ∧ 2 ≤ 0x1800000007 % 4 ∧
      s.cfg.exposeSubops = false :=
  ⟨{ State.reset with inputs := [.command 0x42, .command 0x1800000007] }, rfl, by decide⟩
theorem witness_PhtWriteIsReadBack :
    Memory.wf sample.cfg.phtSize sample.pht ∧ 7 < 2 ^ sample.cfg.m := by decide
theorem witness_CanonicalTablesAreExtensional :
    Memory.wf 2 ([(1, 3)] : Memory) ∧ Memory.wf 2 (Memory.write [] 1 3) ∧
    ∀ i, i < 2 → Memory.read [(1, 3)] i = (Memory.write [] 1 3).read i := by decide
theorem witness_IndexStaysInTable : sample.gbh < 2 ^ sample.cfg.n := by decide
/-- A bit below M-N and the top bit. -/
theorem witness_HistoryMeetsUpperIndexBits :
    1 ≤ sample.cfg.n ∧ sample.gbh < 2 ^ sample.cfg.n ∧
    (0 < sample.cfg.m ∧ 0 < sample.cfg.m - sample.cfg.n) ∧
    (2 < sample.cfg.m ∧ ¬ 2 < sample.cfg.m - sample.cfg.n) := by decide
theorem witness_IndexWithoutHistory : ∃ s : State, s.cfg.n = 0 :=
  ⟨State.resetOf (instanceOf 3 0 .unbounded false), rfl⟩
theorem witness_IndexWithFullHistory : ∃ s : State, s.cfg.n = s.cfg.m :=
  ⟨State.resetOf (instanceOf 4 4 .unbounded false), rfl⟩
theorem witness_OnlyIndexedAddressBitsMatter :
    0x21 / 4 % 2 ^ sample.cfg.m = 0x20 / 4 % 2 ^ sample.cfg.m ∧
    0xffffff20 / 4 % 2 ^ sample.cfg.m = 0x20 / 4 % 2 ^ sample.cfg.m := by decide
theorem witness_CounterUpdateClamps : Memory.wf sample.cfg.phtSize sample.pht ∧ 4 ≠ 5 := by decide
/-- Every clause, the second with a counter of 2. -/
theorem witness_RepeatedUpdatesSettleCounter :
    Memory.wf sample.cfg.phtSize sample.pht ∧ 7 < 2 ^ sample.cfg.m ∧ 1 ≤ 3 ∧ 2 ≤ 3 ∧
    sample.predictRead 7 = true ∧ (sample.counterUpdate 7 false).predictRead 7 = false := by decide
theorem witness_HistoryUpdateShifts :
    (State.resetOf (instanceOf 3 0 .unbounded false)).cfg.n = 0 ∧ 1 ≤ sample.cfg.n := by decide
theorem witness_HistoryHoldsRecentOutcomes :
    (∃ t, execAll [.update 5 true, .rateQuery, .processBranch 0x104 false]
      (State.resetOf sampleConfig) = .next t) ∧ 1 < sampleConfig.n := ⟨⟨_, rfl⟩, by decide⟩
theorem witness_StatisticsCountBranches : Config.default.cntW = .unbounded := rfl
theorem witness_SaturationSetsOvfAndCompletes :
    ∃ s : State, s.cfg.cntW = .bits 8 ∧ s.predictions = 2 ^ 8 - 1 :=
  ⟨{ sample with predictions := 255 }, rfl, rfl⟩
/-- Both clauses: a flag that is set, and one that PROCESS_BRANCH sets. -/
theorem witness_OvfIsStickyAndReported :
    (∃ s : State, s.ovf = true) ∧
    (∃ s t : State, s.ovf = false ∧ exec (.processBranch 0 true) s = .next t ∧ t.ovf = true) :=
  ⟨⟨{ sample with ovf := true }, rfl⟩, ⟨{ sample with predictions := 255 }, _, rfl, rfl, by decide⟩⟩
theorem witness_CommandsKeepWhatTheyDoNotWrite :
    (∃ t, exec (.update 5 true) sample = .next t ∧ isProcessBranch (.update 5 true) = false) ∧
    (∃ t, exec (.predict 0x104) sample = .next t ∧
      trainedOutcome sample.cfg (.predict 0x104) = none) := ⟨⟨_, rfl, rfl⟩, ⟨_, rfl, rfl⟩⟩
theorem witness_PredictThenUpdateEqualsProcessBranch : sample.cfg.exposeSubops = true := rfl
/-- The index met again: after a taken branch at 0x104 the history is 11, and 0x10c meets entry 5. -/
theorem witness_TrainedEntryIsReadBack :
    Memory.wf sample.cfg.phtSize sample.pht ∧ sample.cfg.exposeSubops = true ∧ 1 ≤ sample.cfg.n ∧
    (0x10c / 4 % 2 ^ sample.cfg.m) ^^^ (((sample.gbh >>> 1) ||| 1 <<< (sample.cfg.n - 1)) *
      2 ^ (sample.cfg.m - sample.cfg.n)) = sample.index 0x104 := by decide
theorem witness_QueriesAreIdempotent :
    (Instr.rateQuery = .rateQuery ∨ ∃ addr, Instr.rateQuery = .predict addr) ∧
    (Instr.predict 4 = .rateQuery ∨ ∃ addr, Instr.predict 4 = .predict addr) :=
  ⟨.inl rfl, .inr ⟨4, rfl⟩⟩
/-- The largest word, and a reset. -/
theorem witness_BlockNeverStops : (sampleWith [.command (2 ^ 38 - 1), .reset]).InputsAreWords := by
  intro w hw
  simp only [sampleWith, List.mem_cons, Input.command.injEq, reduceCtorEq, List.not_mem_nil,
    or_false] at hw
  subst hw
  decide
theorem witness_OfferedItemsWaitTheirTurn :
    ∃ s t : State, s.inputs ≠ [] ∧ step s = .next t :=
  ⟨sampleWith [.command 0x824], _, by decide, rfl⟩
theorem witness_ParametersNeverChange : ∃ s t : State, step s = .next t :=
  ⟨sampleWith [.reset], _, rfl⟩
theorem witness_RerunAfterResetIsDeterministic :
    ∃ (s : State) (rest : List Input), s.inputs = .reset :: rest :=
  ⟨sampleWith [.reset, .command 0x824], [.command 0x824], rfl⟩
/-- The largest fields, and both reserved codes. -/
theorem witness_ResponseWordIsReadBack :
    (sampleConfig.cntW = .bits 8 ∧ 7 < 2 ^ sampleConfig.m ∧ 255 < 2 ^ 8) ∧ 2 ≤ 2 % 4 ∧ 2 ≤ 3 % 4 := by
  decide
theorem witness_ResponsesFitTheirWord :
    sample.Inv ∧ (Instr.update 7 true).wellFormed sample.cfg = true ∧ sample.cfg.cntW = .bits 8 :=
  ⟨sample_inv, by decide, rfl⟩
theorem witness_FiniteCountersAgreeUntilOverflow :
    ∃ t, execAll [.processBranch 0x104 true] (State.resetOf sampleConfig) = .next t ∧
      t.ovf = false := ⟨_, rfl, by decide⟩
theorem witness_ExactRateIsAPercentage : (0 ≤ 0 ∧ 0 = 0) ∧ 3 ≤ 8 ∧ 8 ≠ 0 := by decide
/-- The fraction (2^53 + 1) / 2 lies half way between two doubles: both clauses have a case. -/
theorem witness_RoundingPicksNearest :
    0 < 2 ^ 53 + 1 ∧ 0 < 2 ∧ 2 ^ 53 + 1 < 2 * 2 ^ 53 ∧
    (rne64 (2 ^ 53 + 1) 2).scale = 0 ∧ (rne64 (2 ^ 53 + 1) 2).mant = 2 ^ 52 ∧
    2 ^ 52 + 1 ≠ (rne64 (2 ^ 53 + 1) 2).mant := by decide
theorem witness_FloatRateIsAPercentage : 23 ≤ 160 ∧ 0 ≤ 0 := by decide
theorem witness_TraceLineIsABranchExactlyWhenValid :
    "1f T extra".toList.any openSpace = false ∧
    lineVerdict "1f T extra".toList = .branch 0x1f true ∧
    fields "1f T extra".toList = ["1f".toList, "T".toList, "extra".toList] ∧
    hexField "1f".toList = .value 0x1f := by decide
theorem witness_InvalidLinesAreSkipped :
    lineVerdict "xyz t".toList = .skipped ∧
    readLines 1 (["4 n".toList] ++ ["8 t".toList]) = .ok ⟨[(4, false), (8, true)], []⟩ := by decide
theorem witness_EmptyTracePrintsZeroRate :
    ∀ line ∈ splitLines "xyz t\n\n0040\n".toList, lineVerdict line = .skipped := by decide
theorem witness_OverflowedRunPrintsNothing :
    ∃ (cfg : Config) (file : TraceFile) (t : Trace) (s : State), file.ioError = false ∧
      readTrace file.text = .ok t ∧
      issueAll (branchInputs cfg t.branches) (State.resetOf cfg) = .next s ∧ s.ovf = true :=
  ⟨instanceOf 1 1 (.bits 1) false, ⟨"0 t\n0 t\n".toList, false⟩, ⟨[(0, true), (0, true)], []⟩, _,
    rfl, rfl, rfl, by decide⟩
theorem witness_ExactlyIllegalConfigurationsAreRejected :
    (match validateConfig Config.default 30 30 with | .ok cfg => cfg.m = 30 | .error _ => False) ∧
    validateConfig Config.default 31 0 = .error .narrowAddress ∧
    validateConfig Config.default 30 31 = .error .invalid := by
  refine ⟨by rfl, by rfl, by rfl⟩
theorem witness_AssembledLinesDecode :
    assemble sampleConfig "update 7, n".toList = some (.update 7 false) := by decide
theorem witness_BlockPrintsTheSourcesResult :
    Config.default.cntW = .unbounded ∧
    readTrace "4 n\n".toList = .ok ⟨[(4, false)], []⟩ := by decide
theorem witness_BlockStateIsTheSourcesState : Config.default.cntW = .unbounded := rfl
theorem witness_DriverIssuesOneAtATime :
    sample.inputs = [] ∧
    ∀ i ∈ [Instr.processBranch 0x104 true, .update 7 false, .rateQuery], i.wellFormed sample.cfg = true := by
  decide
/-- Each way to fail, the last two at the boundary values -1 and M + 1. -/
theorem witness_InvalidInvocationsExitFailing :
    ["gshare".toList, "4".toList, "2".toList].length ≠ 4 ∧
    ["bimodal".toList].head? ≠ some "gshare".toList ∧
    integerArg "foo_bar".toList = none ∧ integerArg "0".toList = some 0 ∧
    integerArg "-1".toList = some (-1) ∧ integerArg "5".toList = some 5 := by decide
theorem witness_OpenAddressRefusesTrace :
    "-40 x".toList.any openSpace = false ∧ fields "-40 x".toList = ["-40".toList, "x".toList] ∧
    hexField "-40".toList = .openSpelling ∧ readLines 1 ["xyz t".toList] = .ok ⟨[], [1]⟩ := by decide
theorem witness_FileErrorsKeepOnlyWarnings :
    readTrace "4 n\nxyz t\n".toList = .ok ⟨[(4, false)], [2]⟩ := by decide
/-- A letter of ASCII and one outside it. -/
theorem witness_LettersInAnArgumentExitFailing :
    mayStandInInteger 'x' = false ∧ 'x' ∈ "0x4".toList ∧
    mayStandInInteger 'é' = false ∧ 'é' ∈ "é".toList := by decide

end Sys2Proof.Tests
end

section
/-! The state right after reset: its storage, and what the two read primitives return in it. -/

namespace Sys2Proof.Machine

@[simp] theorem State.resetOf_pht (cfg : Config) : (State.resetOf cfg).pht = [] := rfl
@[simp] theorem State.resetOf_gbh (cfg : Config) : (State.resetOf cfg).gbh = 0 := rfl

/-- The table of the reset state lists no entry, so each reads as the unlisted value (R34). -/
@[simp] theorem State.phtRead_resetOf (cfg : Config) (i : Nat) :
    (State.resetOf cfg).phtRead i = 2#2 := by
  rw [State.phtRead, State.resetOf_pht, Memory.read_nil]

/-- Without a history (N = 0) the read yields 0; with one it yields the field, which reset
clears (R28, R35). -/
@[simp] theorem State.gbhRead_resetOf (cfg : Config) : (State.resetOf cfg).gbhRead = 0 := by
  unfold State.gbhRead
  split
  · rfl
  · exact State.resetOf_gbh cfg

/-- Settles O1, from what the reads of the table and of the history return in the reset state. -/
theorem resetFillsTableAndClearsHistory : Obligations.ResetFillsTableAndClearsHistory := by
  intro cfg
  refine ⟨fun i _ => ?_, State.gbhRead_resetOf cfg, State.resetOf_gbh cfg⟩
  rw [State.phtRead_resetOf]
  rfl

end Sys2Proof.Machine
end

section
/-! The two terms of the index: the range of the address's bits, and the history at full length. -/

namespace Sys2Proof.Machine

/-- The address bits of the index are M bits (R100, step 2). -/
theorem pcBits_lt (m addr : Nat) : pcBits m addr < 2 ^ m :=
  Nat.mod_lt _ (Nat.two_pow_pos m)

/-- Settles O21: both terms of the index are below `2^M`, and XOR sets no bit that neither has. -/
theorem indexStaysInTable : Obligations.IndexStaysInTable := by
  intro s addr h
  exact Nat.xor_lt_two_pow (pcBits_lt s.cfg.m addr) (State.shiftedHistory_lt h)

/-- At `N = M` the shift amount is 0; as `M ≥ 1`, the history is not the absent one of `N = 0`
(R102). -/
theorem State.shiftedHistory_of_n_eq_m {s : State} (h : s.cfg.n = s.cfg.m) :
    s.shiftedHistory = s.gbh := by
  have hn : s.cfg.n ≠ 0 := h ▸ Nat.one_le_iff_ne_zero.mp s.cfg.m_pos
  rw [State.shiftedHistory_eq, if_neg hn, h, Nat.sub_self, Nat.pow_zero, Nat.mul_one]

/-- Settles O24, from the history term at full length. -/
theorem indexWithFullHistory : Obligations.IndexWithFullHistory := by
  intro s addr h
  rw [State.index, State.shiftedHistory_of_n_eq_m h, pcBits, Nat.shiftRight_eq_div_pow]

end Sys2Proof.Machine
end

section
/-! The two halves of the source's `update` taken apart: what the table reads as after CounterUpdate,
and the one field HistoryUpdate writes. -/

namespace Sys2Proof.Machine

variable {s : State}

/-- A read of the table after CounterUpdate, at the trained index. -/
theorem State.phtRead_counterUpdate_same (h : Memory.wf s.cfg.phtSize s.pht) (i : Nat) (taken : Bool) :
    (s.counterUpdate i taken).phtRead i = counterNext (s.phtRead i) taken := by
  rw [State.phtRead, State.counterUpdate_pht, Memory.read_write_same h]

/-- A read of the table after CounterUpdate, at any other index. -/
theorem State.phtRead_counterUpdate_other (s : State) {i j : Nat} (hij : j ≠ i) (taken : Bool) :
    (s.counterUpdate i taken).phtRead j = s.phtRead j := by
  rw [State.phtRead, State.counterUpdate_pht, Memory.read_write_other _ hij, State.phtRead]

/-- Settles O26: the trained entry is the clamped next value; the only write is to the table, so the
frame clause holds by definition. -/
theorem counterUpdateClamps : Obligations.CounterUpdateClamps := by
  intro s i h
  refine ⟨?up, ?down, fun j taken hj => State.phtRead_counterUpdate_other s hj taken, fun _ => rfl⟩
  case up => simp [State.phtRead_counterUpdate_same h, counterNext_toNat]
  case down => simp [State.phtRead_counterUpdate_same h, counterNext_toNat]

/-- HistoryUpdate writes the history and no other field (R115). -/
theorem State.historyUpdate_eq (s : State) (taken : Bool) :
    s.historyUpdate taken = { s with gbh := historyNext s.cfg.n s.gbh taken } := by
  ext1 <;> simp

/-- With a history, the next one is the shifted one with the outcome at bit N-1 (R115, the equivalent
form). -/
theorem historyNext_eq_shiftRight_or {n : Nat} (hn : n ≠ 0) (g : Nat) (taken : Bool) :
    historyNext n g taken = (g >>> 1) ||| (taken.toNat <<< (n - 1)) := by
  rw [historyNext_of_ne hn]
  cases taken <;> simp

/-- Settles O28, from the one field written and its next value without and with a history. -/
theorem historyUpdateShifts : Obligations.HistoryUpdateShifts := by
  intro s taken
  refine ⟨fun hn => ?_, fun hn => ?_⟩
  · rw [State.historyUpdate_eq, hn, historyNext_zero]
  · rw [State.historyUpdate_eq, historyNext_eq_shiftRight_or (Nat.one_le_iff_ne_zero.mp hn)]

end Sys2Proof.Machine
end

section
/-! The four commands, each in one equation per case, and what they leave in the table, the history and
the counts. -/

namespace Sys2Proof.Machine

variable {s t : State}

/-- Two states with the same table read alike. -/
theorem State.phtRead_congr (h : t.pht = s.pht) (i : Nat) : t.phtRead i = s.phtRead i := by
  rw [State.phtRead, h, State.phtRead]

/-- The next history with and without storage for it, in one expression (R28, R115). -/
theorem historyNext_eq_ite (n g : Nat) (taken : Bool) :
    historyNext n g taken =
      if n = 0 then g else (g >>> 1) ||| (if taken then 1 <<< (n - 1) else 0) := by
  split
  next hn => rw [hn, historyNext_zero]
  next hn => exact historyNext_of_ne hn g taken

/-- A trained entry holds the clamped next value of the counter, in integers (R110). -/
theorem State.phtRead_update_same_toNat (h : Memory.wf s.cfg.phtSize s.pht) (i : Nat) (taken : Bool) :
    (((s.update i taken).phtRead i).toNat : Int) =
      if taken then min 3 (((s.phtRead i).toNat : Int) + 1)
      else max 0 (((s.phtRead i).toNat : Int) - 1) := by
  rw [State.phtRead_update_same h, counterNext_toNat]

/-- Update writes the table and the history and no other field (R119). -/
theorem State.update_eq (s : State) (i : Nat) (taken : Bool) :
    s.update i taken =
      { s with pht := (s.update i taken).pht, gbh := (s.update i taken).gbh } := by
  ext1 <;> simp

/-- PROCESS_BRANCH leaves the table that Update leaves: counting touches none of it (R130). -/
theorem finishBranch_incPredictions_phtRead (s : State) (idx : Nat) (pred taken : Bool) (i : Nat) :
    (finishBranch s.incPredictions idx pred taken).phtRead i = (s.update idx taken).phtRead i :=
  State.phtRead_congr (by simp [State.phtRead]) i

/-- The room a count has, by the width of the counter (R129). -/
theorem hasRoom_eq_match (width : CntWidth) (c : Nat) :
    hasRoom width c = match width with
      | .unbounded => true
      | .bits w => decide (c < 2 ^ w - 1) := by
  cases width <;> rfl

/-- Settles O14: the table is the one Update leaves, and the other fields are those that the one
equation of the command gives them. -/
theorem processBranchTrainsAndCounts : Obligations.ProcessBranchTrainsAndCounts := by
  intro s addr taken hwf idx pred mis pRoom mRoom hidx hpred hmis hpRoom hmRoom
  replace hidx : idx = s.index addr := hidx.trans (s.index_eq addr).symm
  replace hpred : pred = s.predictRead idx := hpred
  replace hpRoom := hpRoom.trans (hasRoom_eq_match s.cfg.cntW s.predictions).symm
  replace hmRoom := hmRoom.trans (hasRoom_eq_match s.cfg.cntW s.mispredictions).symm
  subst hidx hpred hmis hpRoom hmRoom
  refine ⟨_, exec_processBranch addr taken s, ?entry, fun j hj => ?others, ?history, ?predictions,
    ?mispredictions, ?ovf, ?response, ?cfg, ?inputs⟩
  case entry => rw [finishBranch_incPredictions_phtRead, State.phtRead_update_same_toNat hwf]
  case others => rw [finishBranch_incPredictions_phtRead, State.phtRead_update_other s hj]
  case history => simp [historyNext_eq_ite]
  case predictions => simp [incValue]
  case mispredictions => rw [finishBranch_mispredictions, Bool.bne_eq_xor, ite_and]; rfl
  case ovf => simp
  case response => rw [finishBranch_rsp, Bool.bne_eq_xor, Response.direction]
  case cfg => simp
  case inputs => simp

/-- RATE_QUERY in one equation (R135). -/
theorem exec_rateQuery (s : State) :
    exec .rateQuery s = .next (s.respond (Response.counts s.ovf s.predictions s.mispredictions)) :=
  rfl

/-- Settles O15: answering writes the response port only. -/
theorem rateQueryAnswersCounts : Obligations.RateQueryAnswersCounts := fun s =>
  ⟨_, exec_rateQuery s, State.respond_rsp s _, rfl, State.phtRead_congr (State.respond_pht s _)⟩

/-- PREDICT where the sub-operations are exposed (R140). -/
theorem exec_predict_of_exposed (h : s.cfg.exposeSubops = true) (addr : Nat) :
    exec (.predict addr) s = .next (s.respond
      (Response.direction s.ovf (s.predictRead (s.index addr)) false (s.index addr))) := by
  rw [exec, execPredict, if_pos h]

/-- PREDICT where they are not (R182). -/
theorem exec_predict_of_hidden (h : s.cfg.exposeSubops = false) (addr : Nat) :
    exec (.predict addr) s = .next s.answerIllegal := by
  simp [exec, execPredict, h]

/-- Settles O16: exposed or not, the command only answers. -/
theorem predictAnswersPrediction : Obligations.PredictAnswersPrediction := by
  intro s addr idx hidx
  rw [← State.index_eq] at hidx
  subst hidx
  cases h : s.cfg.exposeSubops with
  | true =>
    exact ⟨_, exec_predict_of_exposed h addr, rfl, State.phtRead_congr (State.respond_pht s _),
      State.respond_rsp s _⟩
  | false =>
    exact ⟨_, exec_predict_of_hidden h addr, rfl, State.phtRead_congr (State.answerIllegal_pht s),
      State.answerIllegal_rsp s⟩

/-- UPDATE where the sub-operations are exposed (R145). -/
theorem exec_update_of_exposed (h : s.cfg.exposeSubops = true) (idx : Nat) (taken : Bool) :
    exec (.update idx taken) s =
      .next ((s.update idx taken).respond (Response.blank s.ovf)) := by
  rw [exec, execUpdate, if_pos h]

/-- UPDATE where they are not (R182). -/
theorem exec_update_of_hidden (h : s.cfg.exposeSubops = false) (idx : Nat) (taken : Bool) :
    exec (.update idx taken) s = .next s.answerIllegal := by
  simp [exec, execUpdate, h]

/-- Settles O17: where it is legal the command is Update and an answer, else only an answer. -/
theorem updateTrainsWithoutCounting : Obligations.UpdateTrainsWithoutCounting := by
  intro s idx taken
  refine ⟨fun hwf h => ⟨_, exec_update_of_exposed h idx taken, ?entry, fun j hj => ?others, ?history,
    ?frame, State.respond_rsp _ _⟩, fun h => exec_update_of_hidden h idx taken⟩
  case entry =>
    rw [State.phtRead_congr (State.respond_pht _ _), State.phtRead_update_same_toNat hwf]
  case others =>
    rw [State.phtRead_congr (State.respond_pht _ _), State.phtRead_update_other s hj]
  case history => rw [State.respond_gbh, State.update_gbh, historyNext_eq_ite]
  case frame => exact congrArg (State.respond · (Response.blank s.ovf)) (s.update_eq idx taken)

end Sys2Proof.Machine
end

section
/-! The exact rate: its two cases, and its range. -/

namespace Sys2Proof.Machine

@[simp] theorem rateExact_zero (m : Nat) : rateExact 0 m = 0 := rfl

theorem rateExact_of_ne {p : Nat} (hp : p ≠ 0) (m : Nat) : rateExact p m = 100 * m / p :=
  if_neg hp

/-- A rate is never negative, whatever the counts. -/
theorem rateExact_nonneg (p m : Nat) : 0 ≤ rateExact p m := by
  by_cases hp : p = 0
  · rw [hp, rateExact_zero]
  · rw [rateExact_of_ne hp]
    positivity

/-- No more than every prediction can be wrong (R31, R136). -/
theorem rateExact_le {p m : Nat} (h : m ≤ p) : rateExact p m ≤ 100 := by
  by_cases hp : p = 0
  · rw [hp, rateExact_zero]
    norm_num
  · have hmp : (m : Rat) ≤ p := Nat.cast_le.2 h
    rw [rateExact_of_ne hp]
    exact div_le_of_le_mul₀ p.cast_nonneg (by norm_num) (mul_le_mul_of_nonneg_left hmp (by norm_num))

/-- Settles O45, from the two cases of the rate and its range. -/
theorem exactRateIsAPercentage : Obligations.ExactRateIsAPercentage := fun p m h =>
  ⟨fun hp => by rw [hp, rateExact_zero], fun hp => rateExact_of_ne hp m, rateExact_nonneg p m,
    rateExact_le h⟩

end Sys2Proof.Machine
end

section
/-! The decoder in one equation per opcode, and its agreement with the encoder. -/

namespace Sys2Proof

variable {cfg : Config} {w : Nat}

/-- The width of a command word, in the order of R70. -/
theorem Config.cmdW_eq (cfg : Config) : cfg.cmdW = 3 + cfg.addrW + cfg.m := rfl

theorem decode_of_opField_zero (hw : w < 2 ^ cfg.cmdW) (h : opField w = 0) :
    decode cfg w = .ok (.processBranch (addrField cfg w) (takenField w)) := by
  simp [decode, hw, h]

theorem decode_of_opField_one (hw : w < 2 ^ cfg.cmdW) (h : opField w = 1) :
    decode cfg w = .ok .rateQuery := by
  simp [decode, hw, h]

theorem decode_of_opField_two (hw : w < 2 ^ cfg.cmdW) (h : opField w = 2) :
    decode cfg w = .ok (.predict (addrField cfg w)) := by
  simp [decode, hw, h]

theorem decode_of_opField_three (hw : w < 2 ^ cfg.cmdW) (h : opField w = 3) :
    decode cfg w = .ok (.update (idxField cfg w) (takenField w)) := by
  simp [decode, hw, h]

/-- The op field has four values. -/
theorem opField_lt (w : Nat) : opField w < 4 := Nat.mod_lt _ (by decide)

/-- What a word decodes to, said once: a word of `CMD_W` bits and one of four commands, by its op. -/
theorem decode_cases {i : Instr} (h : decode cfg w = .ok i) : w < 2 ^ cfg.cmdW ∧
    (opField w = 0 ∧ i = .processBranch (addrField cfg w) (takenField w) ∨
      opField w = 1 ∧ i = .rateQuery ∨
      opField w = 2 ∧ i = .predict (addrField cfg w) ∨
      opField w = 3 ∧ i = .update (idxField cfg w) (takenField w)) := by
  have hw : w < 2 ^ cfg.cmdW := decode_ok_iff.1 ⟨i, h⟩
  have eq_of {j : Instr} (hj : decode cfg w = .ok j) : i = j := Except.ok.inj (h.symm.trans hj)
  refine ⟨hw, ?_⟩
  obtain hop | hop | hop | hop : opField w = 0 ∨ opField w = 1 ∨ opField w = 2 ∨ opField w = 3 := by
    have := opField_lt w
    omega
  · exact .inl ⟨hop, eq_of (decode_of_opField_zero hw hop)⟩
  · exact .inr (.inl ⟨hop, eq_of (decode_of_opField_one hw hop)⟩)
  · exact .inr (.inr (.inl ⟨hop, eq_of (decode_of_opField_two hw hop)⟩))
  · exact .inr (.inr (.inr ⟨hop, eq_of (decode_of_opField_three hw hop)⟩))

/-- A field of a word fits its width. -/
theorem bitField_lt (v lo width : Nat) : bitField v lo width < 2 ^ width :=
  Nat.mod_lt _ (Nat.two_pow_pos width)

/-- The decoder takes each operand from its field, so the operand fits it. -/
theorem wellFormed_of_decode {i : Instr} (h : decode cfg w = .ok i) : i.wellFormed cfg = true := by
  obtain ⟨-, ⟨-, rfl⟩ | ⟨-, rfl⟩ | ⟨-, rfl⟩ | ⟨-, rfl⟩⟩ := decode_cases h
  · exact decide_eq_true (bitField_lt w 3 cfg.addrW)
  · rfl
  · exact decide_eq_true (bitField_lt w 3 cfg.addrW)
  · exact decide_eq_true (bitField_lt w (cfg.addrW + 3) cfg.m)

/-- The word of a well-formed command has `CMD_W` bits. -/
theorem encode_lt {i : Instr} (h : i.wellFormed cfg = true) : encode cfg i < 2 ^ cfg.cmdW :=
  match i with
  | .processBranch addr taken => (Laws.EncodesInWidth.processBranch addr taken cfg h).1
  | .rateQuery => (Laws.EncodesInWidth.rateQuery cfg h).1
  | .predict addr => (Laws.EncodesInWidth.predict addr cfg h).1
  | .update idx taken => (Laws.EncodesInWidth.update idx taken cfg h).1

/-- The word of a well-formed command carries the command's opcode. -/
theorem opField_encode (cfg : Config) (i : Instr) :
    opField (encode cfg i) = Laws.EncodesInWidth.opcodeOf i := by
  cases i <;> exact opField_assembleFields (by decide) _ _ _

/-- The decoder inverts the encoder: the op field picks the command, and each operand reads back. -/
theorem decode_encode {i : Instr} (h : i.wellFormed cfg = true) :
    decode cfg (encode cfg i) = .ok i := by
  have hw := encode_lt h
  have hop := opField_encode cfg i
  have hzero : 0 < 2 ^ cfg.addrW := Nat.two_pow_pos _
  cases i with
  | processBranch addr taken =>
    rw [decode_of_opField_zero hw hop, encode, takenField_assembleFields (by decide),
      addrField_assembleFields (by decide) _ (of_decide_eq_true h)]
  | rateQuery => exact decode_of_opField_one hw hop
  | predict addr =>
    rw [decode_of_opField_two hw hop, encode,
      addrField_assembleFields (by decide) _ (of_decide_eq_true h)]
  | update idx taken =>
    rw [decode_of_opField_three hw hop, encode, takenField_assembleFields (by decide),
      idxField_assembleFields (by decide) _ hzero (of_decide_eq_true h)]

/-- Settles O11, from the round trip and from the width of each field the decoder reads. -/
theorem decodeInvertsEncode : Obligations.DecodeInvertsEncode :=
  ⟨fun _ _ h => ⟨encode_lt h, decode_encode h⟩, fun _ _ _ h => wellFormed_of_decode h⟩

/-! The fields in ordinary arithmetic. -/

theorem opField_eq (w : Nat) : opField w = w % 4 := by simp [opField, bitField]

theorem takenField_eq (w : Nat) : takenField w = decide (w / 4 % 2 = 1) := rfl

theorem addrField_eq (cfg : Config) (w : Nat) : addrField cfg w = w / 8 % 2 ^ cfg.addrW := rfl

/-- Nothing stands above the index in a command word (R70). -/
theorem div_lt_of_lt_cmdW (hw : w < 2 ^ cfg.cmdW) : w / 2 ^ (cfg.addrW + 3) < 2 ^ cfg.m := by
  refine Nat.div_lt_of_lt_mul ?_
  rwa [← Nat.pow_add, Nat.add_comm cfg.addrW, ← Config.cmdW_eq]

theorem idxField_eq (hw : w < 2 ^ cfg.cmdW) : idxField cfg w = w / 2 ^ (cfg.addrW + 3) :=
  Nat.mod_eq_of_lt (div_lt_of_lt_cmdW hw)

/-- Settles O10, from the equation of each opcode and its fields in ordinary arithmetic. -/
theorem opFieldSelectsCommand : Obligations.OpFieldSelectsCommand := by
  intro cfg w hw
  rw [← Config.cmdW_eq] at hw
  rw [← opField_eq, ← idxField_eq hw]
  exact ⟨decode_of_opField_zero hw, decode_of_opField_one hw, decode_of_opField_two hw,
    fun h => ⟨decode_of_opField_three hw h, bitField_lt w (cfg.addrW + 3) cfg.m⟩⟩

/-- Settles O13: each word has `CMD_W` bits, and its op and its fields are computed. -/
theorem workedEncodingsDecode : Obligations.WorkedEncodingsDecode := by
  intro cfg ha
  have hW : cfg.cmdW = 35 + cfg.m := by rw [Config.cmdW_eq, ha]
  refine ⟨fun hm => ?_, fun hm => ?_, fun hm => ?_, fun hm => ?_, fun hm => ?_, fun hm => ?_,
    fun hm => ?_⟩ <;> rw [hm] at hW
  · rw [decode_of_opField_zero (by rw [hW]; decide) rfl, addrField_eq, takenField_eq, ha]
    rfl
  · rw [decode_of_opField_zero (by rw [hW]; decide) rfl, addrField_eq, takenField_eq, ha]
    rfl
  · exact decode_of_opField_one (by rw [hW]; decide) rfl
  · rw [decode_of_opField_two (by rw [hW]; decide) rfl, addrField_eq, ha]
    rfl
  · rw [decode_of_opField_three (by rw [hW]; decide) rfl, idxField_eq (by rw [hW]; decide),
      takenField_eq, ha]
    rfl
  · rw [decode_of_opField_three (by rw [hW]; decide) rfl, idxField_eq (by rw [hW]; decide),
      takenField_eq, ha]
    rfl
  · rw [decode_of_opField_zero (by rw [hW]; decide) rfl, addrField_eq, takenField_eq, ha]
    rfl

end Sys2Proof
end

section
/-! The step in one equation per kind of held item, what it does to the queue, and the runs that never
stop. -/

namespace Sys2Proof.Machine

variable {s t : State} {rest : List Input}

/-- The block after taking its oldest item, with the items behind it written out. -/
theorem State.accept_eq {x : Input} (h : s.inputs = x :: rest) :
    s.accept = { s with inputs := rest } := by
  rw [State.accept, h, List.tail_cons]

theorem step_of_inputs_nil (h : s.inputs = []) : step s = .next s.idle := by
  rw [step, h]

theorem step_of_inputs_reset (h : s.inputs = .reset :: rest) :
    step s = .next { State.resetOf s.cfg with inputs := rest } := by
  simp [step, h, State.accept_eq h, State.applyReset]

theorem step_of_inputs_command {w : Nat} {i : Instr} (h : s.inputs = .command w :: rest)
    (hw : decode s.cfg w = .ok i) : step s = exec i { s with inputs := rest } := by
  simp [step, h, hw, State.accept_eq h]

theorem step_of_inputs_overwide {w : Nat} (h : s.inputs = .command w :: rest)
    (hw : 2 ^ s.cfg.cmdW ≤ w) : step s = .refused (.notACommandWord w) := by
  simp [step, h, decode, Nat.not_lt.2 hw]

/-- Settles O6: the equation of a held command word. -/
theorem stepExecutesDecodedCommand : Obligations.StepExecutesDecodedCommand :=
  fun _ _ _ _ => step_of_inputs_command

/-- Settles O7, from what the reads return in the reset state. -/
theorem stepAppliesReset : Obligations.StepAppliesReset := fun s _ h =>
  ⟨_, step_of_inputs_reset h, fun i => congrArg BitVec.toNat (State.phtRead_resetOf s.cfg i),
    rfl, rfl, rfl, rfl, rfl, rfl, rfl⟩

/-- Settles O8: the idle step writes the response port only. -/
theorem stepIdleKeepsState : Obligations.StepIdleKeepsState := fun _ h =>
  ⟨_, step_of_inputs_nil h, rfl, rfl, rfl, rfl, rfl, rfl, h, rfl⟩

/-- A held word of `CMD_W` bits has a command, which the step executes. -/
theorem step_next_of_word {w : Nat} (h : s.inputs = .command w :: rest) (hw : w < 2 ^ s.cfg.cmdW) :
    ∃ t, step s = .next t := by
  obtain ⟨i, hi⟩ := decode_ok_iff.2 hw
  rw [step_of_inputs_command h hi]
  exact exec_next i _

/-- Settles O9, one clause from each side of the width. -/
theorem stepRefusesExactlyOverwideNumbers : Obligations.StepRefusesExactlyOverwideNumbers :=
  fun _ _ _ h => ⟨step_of_inputs_overwide h, step_next_of_word h⟩

/-- A held illegal command is only answered (R182). -/
theorem exec_of_opField_hidden {w : Nat} {i : Instr} (hi : decode s.cfg w = .ok i)
    (hop : 2 ≤ opField w) (h : s.cfg.exposeSubops = false) (t : State) (ht : t.cfg = s.cfg) :
    exec i t = .next t.answerIllegal := by
  rw [← ht] at h
  obtain ⟨-, ⟨h0, -⟩ | ⟨h1, -⟩ | ⟨-, rfl⟩ | ⟨-, rfl⟩⟩ := decode_cases hi
  · omega
  · omega
  · exact exec_predict_of_hidden h _
  · exact exec_update_of_hidden h _ _

/-- Settles O18, from the answer to a word of op 10 or 11. -/
theorem illegalCommandsAreInert : Obligations.IllegalCommandsAreInert := by
  intro s w rest h hw hop hx
  rw [← opField_eq] at hop
  obtain ⟨i, hi⟩ := decode_ok_iff.2 hw
  rw [step_of_inputs_command h hi]
  exact exec_of_opField_hidden hi hop hx { s with inputs := rest } rfl

/-- No step changes a parameter, and each takes the oldest held item if there is one (R23, R61). -/
theorem step_keeps_ports (h : step s = .next t) : t.cfg = s.cfg ∧ t.inputs = s.inputs.tail := by
  obtain ⟨hin, rfl⟩ | ⟨rest, -, rfl⟩ | ⟨w, rest, i, -, -, he⟩ := step_cases h
  · exact ⟨rfl, by simp [hin]⟩
  · exact ⟨rfl, rfl⟩
  · exact exec_keeps_ports he

/-- Settles O40: the parameters are among what a step keeps. -/
theorem parametersNeverChange : Obligations.ParametersNeverChange :=
  fun _ _ h => (step_keeps_ports h).1

/-- Held words are still held words after a step. -/
theorem State.InputsAreWords.step (h : s.InputsAreWords) (hs : step s = .next t) :
    t.InputsAreWords := by
  obtain ⟨hcfg, hin⟩ := step_keeps_ports hs
  intro w hw
  rw [hcfg]
  rw [hin] at hw
  exact h w (List.mem_of_mem_tail hw)

/-- With only words of `CMD_W` bits held, a step answers next. -/
theorem State.InputsAreWords.step_next (h : s.InputsAreWords) : ∃ t, Machine.step s = .next t := by
  cases hin : s.inputs with
  | nil => exact ⟨_, step_of_inputs_nil hin⟩
  | cons x rest =>
    cases x with
    | reset => exact ⟨_, step_of_inputs_reset hin⟩
    | command w => exact step_next_of_word hin (h w (by simp [hin]))

/-- Settles O38, by induction on the number of steps: each answers next, takes one item and keeps the
rest held words. -/
theorem blockNeverStops : Obligations.BlockNeverStops := by
  intro k
  induction k with
  | zero => exact fun s h => ⟨s, rfl, rfl, h⟩
  | succ k ih =>
    intro s h
    obtain ⟨u, hu⟩ := h.step_next
    obtain ⟨t, hrun, hin, ht⟩ := ih u (h.step hu)
    refine ⟨t, (runSteps_succ hu).trans hrun, ?_, ht⟩
    rw [hin, (step_keeps_ports hu).2, List.drop_tail]

/-- Settles O41: the first step gives the reset state with the rest held. -/
theorem rerunAfterResetIsDeterministic : Obligations.RerunAfterResetIsDeterministic :=
  fun _ _ _ h => runSteps_succ (step_of_inputs_reset h)

/-- Two words that decode alike are stepped alike. -/
theorem step_congr_decode {w w' : Nat} (hw : w < 2 ^ s.cfg.cmdW)
    (h : decode s.cfg w' = decode s.cfg w) :
    step { s with inputs := .command w :: rest } = step { s with inputs := .command w' :: rest } := by
  obtain ⟨i, hi⟩ := decode_ok_iff.2 hw
  rw [step_of_inputs_command (s := { s with inputs := .command w :: rest }) rfl hi,
    step_of_inputs_command (s := { s with inputs := .command w' :: rest }) rfl (h.trans hi)]

/-- Settles O12: for each op the fields the statement names give the operands the decoder takes. -/
theorem unreadFieldsAreIgnored : Obligations.UnreadFieldsAreIgnored := by
  intro s rest w w' hw hw' hop h0 h2 h3
  refine step_congr_decode hw ?_
  obtain ⟨w0, w1, w2, w3⟩ := opFieldSelectsCommand s.cfg w hw
  obtain ⟨w0', w1', w2', w3'⟩ := opFieldSelectsCommand s.cfg w' hw'
  obtain h | h | h | h : w % 4 = 0 ∨ w % 4 = 1 ∨ w % 4 = 2 ∨ w % 4 = 3 := by omega
  · have hfields := h0 h
    simp only [Nat.pow_succ', Nat.mod_mul, Nat.div_div_eq_div_mul, Nat.reduceMul] at hfields
    have htaken : w' / 4 % 2 = w / 4 % 2 := by omega
    have haddr : w' / 8 % 2 ^ s.cfg.addrW = w / 8 % 2 ^ s.cfg.addrW := by omega
    rw [w0 h, w0' (hop ▸ h), htaken, haddr]
  · rw [w1 h, w1' (hop ▸ h)]
  · rw [w2 h, w2' (hop ▸ h), h2 h]
  · obtain ⟨htaken, hidx⟩ := h3 h
    rw [(w3 h).1, (w3' (hop ▸ h)).1, htaken, hidx]

end Sys2Proof.Machine
end

section
/-! What a command leaves, said once: the next state in each of the five cases. -/

namespace Sys2Proof.Machine

variable {s t : State}

/-- The next state of a command, by the command and by whether the sub-operations are exposed. -/
theorem exec_next_cases {i : Instr} (h : exec i s = .next t) :
    (∃ addr taken, i = .processBranch addr taken ∧
      t = finishBranch s.incPredictions (s.index addr) (s.predictRead (s.index addr)) taken) ∨
    (i = .rateQuery ∧ t = s.respond (Response.counts s.ovf s.predictions s.mispredictions)) ∨
    (∃ addr, i = .predict addr ∧ s.cfg.exposeSubops = true ∧ t = s.respond
      (Response.direction s.ovf (s.predictRead (s.index addr)) false (s.index addr))) ∨
    (∃ idx taken, i = .update idx taken ∧ s.cfg.exposeSubops = true ∧
      t = (s.update idx taken).respond (Response.blank s.ovf)) ∨
    (((∃ addr, i = .predict addr) ∨ ∃ idx taken, i = .update idx taken) ∧
      s.cfg.exposeSubops = false ∧ t = s.answerIllegal) := by
  have next_eq {u : State} (hu : exec i s = .next u) : t = u :=
    Host.Outcome.next.inj (h.symm.trans hu)
  obtain ⟨addr, taken, hi, e⟩ | ⟨hi, e⟩ | ⟨addr, hi, hx, e⟩ | ⟨idx, taken, hi, hx, e⟩ |
    ⟨hi, hx, e⟩ := exec_cases i s
  · exact .inl ⟨addr, taken, hi, next_eq e⟩
  · exact .inr (.inl ⟨hi, next_eq e⟩)
  · exact .inr (.inr (.inl ⟨addr, hi, hx, next_eq e⟩))
  · exact .inr (.inr (.inr (.inl ⟨idx, taken, hi, hx, next_eq e⟩)))
  · exact .inr (.inr (.inr (.inr ⟨hi, hx, next_eq e⟩)))

end Sys2Proof.Machine
end

section
/-! The invariant: the reset state has it, every command, step and offer keeps it, so every reachable
state has it. -/

namespace Sys2Proof.Machine

variable {s t : State}

/-- Settles O2, by definition of the reset state. -/
theorem resetClearsStatistics : Obligations.ResetClearsStatistics :=
  ⟨fun _ => ⟨rfl, rfl, rfl, rfl, rfl, rfl⟩, rfl⟩

theorem fitsCounter_zero (width : CntWidth) : fitsCounter width 0 = true := by
  cases width <;> simp [fitsCounter]

/-- Settles O3: the empty table is canonical and 0 is in every bound. -/
theorem resetSatisfiesInvariant : Obligations.ResetSatisfiesInvariant := fun _ =>
  { pht_wf := Memory.wf_nil _
    gbh_lt := Nat.two_pow_pos _
    mispredictions_le := Nat.le_refl 0
    predictions_fit := fitsCounter_zero _
    ovf_saturated := nofun }

/-- A count above one without room has none either. -/
theorem hasRoom_eq_false_of_le {width : CntWidth} {a b : Nat} (hab : a ≤ b)
    (h : hasRoom width a = false) : hasRoom width b = false := by
  cases width with
  | unbounded => cases h
  | bits w =>
    simp only [hasRoom, decide_eq_false_iff_not] at h ⊢
    omega

/-- A count without room is held by `Inc` (R129). -/
theorem incValue_of_hasRoom_eq_false {width : CntWidth} {c : Nat} (h : hasRoom width c = false) :
    incValue width c = c := by
  simp [incValue, h]

theorem incValue_of_hasRoom {width : CntWidth} {c : Nat} (h : hasRoom width c = true) :
    incValue width c = c + 1 :=
  if_pos h

/-- The index of a state with the invariant is inside the table (R106). -/
theorem State.Inv.index_lt (h : s.Inv) (addr : Nat) : s.index addr < 2 ^ s.cfg.m :=
  indexStaysInTable s addr h.gbh_lt

/-- Update at an index inside the table keeps the invariant. -/
theorem State.Inv.update (h : s.Inv) {idx : Nat} (hidx : idx < 2 ^ s.cfg.m) (taken : Bool) :
    (s.update idx taken).Inv where
  pht_wf := by simpa using Memory.wf_write h.pht_wf hidx _
  gbh_lt := by simpa using historyNext_lt h.gbh_lt taken
  mispredictions_le := by simpa using h.mispredictions_le
  predictions_fit := by simpa using h.predictions_fit
  ovf_saturated := by simpa using h.ovf_saturated

/-- Answering keeps the invariant: the response port is none of its fields. -/
theorem State.Inv.respond (h : s.Inv) (r : Response) : (s.respond r).Inv :=
  h.congr rfl rfl rfl rfl rfl rfl

/-- `Inc` of both counts, the second only where a misprediction is counted, keeps the invariant: a set
`ovf` means that one count had no room, so the larger one, `predictions`, has none and is held. -/
theorem State.Inv.countBranch (h : s.Inv) (mis : Bool) :
    (s.incPredictions.countMisprediction mis).Inv where
  pht_wf := by simpa using h.pht_wf
  gbh_lt := by simpa using h.gbh_lt
  mispredictions_le := by
    cases mis with
    | true => simpa using incValue_le_incValue s.cfg.cntW h.mispredictions_le
    | false => simpa using h.mispredictions_le.trans (le_incValue s.cfg.cntW s.predictions)
  predictions_fit := by simpa using fitsCounter_incValue h.predictions_fit
  ovf_saturated := by
    intro ho
    have hfull : hasRoom s.cfg.cntW s.predictions = false := by
      simp only [State.countMisprediction_ovf, State.incPredictions_ovf,
        State.incPredictions_mispredictions, State.incPredictions_cfg, Bool.or_eq_true,
        Bool.and_eq_true, Bool.not_eq_true'] at ho
      obtain (ho | ho) | ⟨-, ho⟩ := ho
      · exact h.ovf_saturated ho
      · exact ho
      · exact hasRoom_eq_false_of_le h.mispredictions_le ho
    simpa [incValue_of_hasRoom_eq_false hfull] using hfull

/-- A well-formed command keeps the invariant. -/
theorem exec_keeps_inv {i : Instr} (h : s.Inv) (hi : i.wellFormed s.cfg = true)
    (he : exec i s = .next t) : t.Inv := by
  obtain ⟨addr, taken, rfl, rfl⟩ | ⟨rfl, rfl⟩ | ⟨addr, rfl, -, rfl⟩ | ⟨idx, taken, rfl, -, rfl⟩ |
    ⟨-, -, rfl⟩ := exec_next_cases he
  · exact ((h.countBranch _).update (by simpa using h.index_lt addr) taken).respond _
  · exact h.respond _
  · exact h.respond _
  · exact (h.update (of_decide_eq_true hi) taken).respond _
  · exact h.respond _

/-- Settles O4: an idle step writes no field of the invariant, a reset establishes it, and a command
keeps it, since what a word decodes to is well-formed. -/
theorem stepKeepsInvariant : Obligations.StepKeepsInvariant := by
  intro s t h hs
  obtain ⟨-, rfl⟩ | ⟨rest, -, rfl⟩ | ⟨w, rest, i, -, hw, he⟩ := step_cases hs
  · exact h.congr rfl rfl rfl rfl rfl rfl
  · exact (resetSatisfiesInvariant s.cfg).congr rfl rfl rfl rfl rfl rfl
  · have haccept : s.accept.Inv := h.congr rfl rfl rfl rfl rfl rfl
    exact exec_keeps_inv haccept (wellFormed_of_decode hw) he

/-- Every reachable state has the parameters it started with and the invariant. -/
theorem Reachable.cfg_and_inv {cfg : Config} (h : Reachable cfg s) : s.cfg = cfg ∧ s.Inv := by
  induction h with
  | reset => exact ⟨rfl, resetSatisfiesInvariant cfg⟩
  | offer _ _ ih => exact ⟨ih.1, ih.2.congr rfl rfl rfl rfl rfl rfl⟩
  | step _ hs ih =>
    exact ⟨(parametersNeverChange _ _ hs).trans ih.1, stepKeepsInvariant _ _ ih.2 hs⟩

/-- With unbounded counters the invariant leaves `ovf` clear: a count always has room (R32). -/
theorem State.Inv.ovf_of_unbounded (h : s.Inv) (hw : s.cfg.cntW = .unbounded) : s.ovf = false := by
  cases ho : s.ovf with
  | false => rfl
  | true =>
    have hroom := h.ovf_saturated ho
    rw [hw] at hroom
    cases hroom

/-- Settles O5, from the invariant of every reachable state. -/
theorem reachableStatesStayInBounds : Obligations.ReachableStatesStayInBounds := by
  intro cfg s hs
  obtain ⟨rfl, h⟩ := hs.cfg_and_inv
  refine ⟨rfl, fun i => ⟨Nat.zero_le _, Nat.le_of_lt_succ (s.phtRead i).isLt⟩, fun i hi => ?_,
    h.gbh_lt, h.mispredictions_le, h.index_lt, h.ovf_of_unbounded⟩
  rw [State.phtRead, Memory.read_of_size_le h.pht_wf hi]
  rfl

end Sys2Proof.Machine
end

section
/-! The table as data: its entries are what its reads return, and repeated training of one entry. -/

namespace Sys2Proof.Machine

variable {s : State} {size : Nat} {mem : Memory}

/-- A read at a listed index gives the listed counter: no index is listed twice. -/
theorem Memory.read_of_mem (h : mem.Pairwise (fun a b => a.1 < b.1)) {e : Nat × Counter}
    (he : e ∈ mem) : mem.read e.1 = e.2 := by
  induction mem with
  | nil => cases he
  | cons x rest ih =>
    obtain ⟨hx, hrest⟩ := List.pairwise_cons.1 h
    rcases List.mem_cons.1 he with rfl | he
    · exact if_pos rfl
    · rw [Memory.read, if_neg (hx e he).ne', ih hrest he]

/-- A counter that is not the unlisted one is listed at the index it is read from. -/
theorem Memory.mem_of_read_ne {i : Nat} (h : mem.read i ≠ Memory.unlisted) :
    (i, mem.read i) ∈ mem := by
  induction mem with
  | nil => exact absurd rfl h
  | cons x rest ih =>
    by_cases hi : i = x.1
    · subst hi
      simp [Memory.read]
    · rw [Memory.read, if_neg hi] at h ⊢
      exact List.mem_cons_of_mem x (ih h)

/-- The entries of a canonical table are its reads inside the table that differ from the unlisted
value (log 4). -/
theorem Memory.mem_iff_read (h : Memory.wf size mem) (e : Nat × Counter) :
    e ∈ mem ↔ e.1 < size ∧ mem.read e.1 = e.2 ∧ e.2 ≠ Memory.unlisted := by
  constructor
  · exact fun he => ⟨(h.2 e he).1, Memory.read_of_mem h.1 he, (h.2 e he).2⟩
  · rintro ⟨-, hread, hne⟩
    have hmem := Memory.mem_of_read_ne (mem := mem) (i := e.1) (by rwa [hread])
    rwa [hread] at hmem

/-- A list with rising indexes names no entry twice. -/
theorem Memory.nodup_of_pairwise (h : mem.Pairwise (fun a b => a.1 < b.1)) : mem.Nodup :=
  h.imp fun hab heq => (heq ▸ hab).false

/-- Settles O20: equal reads give equal entries, and rising indexes fix their order. -/
theorem canonicalTablesAreExtensional : Obligations.CanonicalTablesAreExtensional := by
  intro size a b ha hb hread
  have hmem : ∀ e, e ∈ a ↔ e ∈ b := fun e => by
    rw [Memory.mem_iff_read ha, Memory.mem_iff_read hb]
    exact and_congr_right fun he => by rw [hread e.1 he]
  have hperm : a.Perm b := (List.perm_ext_iff_of_nodup (Memory.nodup_of_pairwise ha.1)
    (Memory.nodup_of_pairwise hb.1)).2 hmem
  exact hperm.eq_of_pairwise (fun x y _ _ hxy hyx => (hxy.asymm hyx).elim) ha.1 hb.1

/-- A table entry is a 2-bit number (R25). -/
theorem counter_toNat_le (c : Counter) : c.toNat ≤ 3 := Nat.le_of_lt_succ c.isLt

/-- Settles O19, from the laws of the storage. -/
theorem phtWriteIsReadBack : Obligations.PhtWriteIsReadBack := fun _ i v h hi =>
  ⟨Memory.read_write_same h i v, fun _ hj => Memory.read_write_other _ hj v,
    Memory.wf_write h hi v, rfl, counter_toNat_le _⟩

/-- CounterUpdate inside the table keeps it canonical. -/
theorem State.wf_counterUpdate (h : Memory.wf s.cfg.phtSize s.pht) {i : Nat} (hi : i < s.cfg.phtSize)
    (taken : Bool) :
    Memory.wf (s.counterUpdate i taken).cfg.phtSize (s.counterUpdate i taken).pht :=
  Memory.wf_write h hi _

/-- Repeated CounterUpdates of one entry run its counter. -/
theorem State.phtRead_iterate_counterUpdate {i : Nat} (taken : Bool) (k : Nat)
    (h : Memory.wf s.cfg.phtSize s.pht) (hi : i < s.cfg.phtSize) :
    ((fun t : State => t.counterUpdate i taken)^[k] s).phtRead i =
      (counterNext · taken)^[k] (s.phtRead i) := by
  induction k generalizing s with
  | zero => rfl
  | succ k ih =>
    rw [Function.iterate_succ_apply, ih (State.wf_counterUpdate h hi taken) hi,
      State.phtRead_counterUpdate_same h, Function.iterate_succ_apply]

/-- The last `j` of `k` updates of a counter, taken apart from those before them. -/
theorem iterate_counterNext_eq {j k : Nat} (hjk : j ≤ k) (taken : Bool) (c : Counter) :
    ∃ d, (counterNext · taken)^[k] c = (counterNext · taken)^[j] d :=
  ⟨(counterNext · taken)^[k - j] c, by rw [← Function.iterate_add_apply, Nat.add_sub_cancel' hjk]⟩

/-- What one, two and three updates alike make of any counter (R113 (a), (c), (d)). -/
theorem counterNext_settles : ∀ c : Counter,
    (1 ≤ (counterNext c true).toNat ∧ (counterNext c false).toNat ≤ 2) ∧
    (predictsTaken ((counterNext · true)^[2] c) = true ∧
      predictsTaken ((counterNext · false)^[2] c) = false) ∧
    (((counterNext · true)^[3] c).toNat = 3 ∧ ((counterNext · false)^[3] c).toNat = 0) := by
  decide

/-- Only a counter of 2 goes from taken to not-taken in one update (R113 (b)). -/
theorem counter_eq_two_of_flip : ∀ c : Counter, predictsTaken c = true →
    predictsTaken (counterNext c false) = false → c.toNat = 2 := by
  decide

/-- Settles O27: the updates run the counter, and the last one, two or three of them settle it. -/
theorem repeatedUpdatesSettleCounter : Obligations.RepeatedUpdatesSettleCounter := by
  intro s i k h hi
  simp only [State.predictRead, State.phtRead_iterate_counterUpdate _ _ h hi,
    State.phtRead_counterUpdate_same h]
  refine ⟨fun hk => ?_, counter_eq_two_of_flip (s.phtRead i), fun hk => ?_, fun hk => ?_⟩
  all_goals
    obtain ⟨c, hc⟩ := iterate_counterNext_eq hk true (s.phtRead i)
    obtain ⟨d, hd⟩ := iterate_counterNext_eq hk false (s.phtRead i)
    obtain ⟨up1, up2, up3⟩ := counterNext_settles c
    obtain ⟨down1, down2, down3⟩ := counterNext_settles d
    rw [hc, hd]
  · exact ⟨up1.1, down1.2⟩
  · exact ⟨up2.1, down2.2⟩
  · exact ⟨up3.1, down3.2⟩

end Sys2Proof.Machine
end

section
/-! The index bit by bit, and what it does not depend on. -/

namespace Sys2Proof.Machine

variable {s : State}

/-- Bit `b` of the address bits of the index is address bit `b + 2` (R100, steps 1 and 2). -/
theorem testBit_pcBits {m b : Nat} (hb : b < m) (addr : Nat) :
    (pcBits m addr).testBit b = addr.testBit (b + 2) := by
  rw [pcBits, Nat.testBit_mod_two_pow, Nat.testBit_shiftRight, Nat.add_comm 2]
  simp [hb]

/-- Bit `b` of the history term is history bit `b - (M-N)`, and 0 below the shift (R100, step 3). -/
theorem State.testBit_shiftedHistory (hn : s.cfg.n ≠ 0) (b : Nat) : s.shiftedHistory.testBit b =
    (decide (s.cfg.m - s.cfg.n ≤ b) && s.gbh.testBit (b - (s.cfg.m - s.cfg.n))) := by
  rw [State.shiftedHistory_eq, if_neg hn, Nat.testBit_mul_two_pow]

/-- Settles O22, from the bits of the two terms. -/
theorem historyMeetsUpperIndexBits : Obligations.HistoryMeetsUpperIndexBits := by
  intro s addr b hn hb _
  rw [State.index, Nat.testBit_xor, testBit_pcBits hb,
    State.testBit_shiftedHistory (Nat.one_le_iff_ne_zero.mp hn)]
  by_cases hlow : b < s.cfg.m - s.cfg.n
  · simp [hlow, Nat.not_le.2 hlow]
  · simp [hlow, Nat.not_lt.1 hlow]

/-- Settles O23: the history term and the read of an absent history are both 0. -/
theorem indexWithoutHistory : Obligations.IndexWithoutHistory := by
  intro s addr hn
  simp [State.index_eq, State.gbhRead, hn]

/-- Settles O25: the two commands read the address through its index alone. -/
theorem onlyIndexedAddressBitsMatter : Obligations.OnlyIndexedAddressBitsMatter := by
  intro s a b taken h
  have hindex : s.index a = s.index b := by rw [State.index_eq, State.index_eq, h]
  refine ⟨by rw [exec_processBranch, exec_processBranch, hindex], ?_⟩
  cases hx : s.cfg.exposeSubops with
  | true => rw [exec_predict_of_exposed hx, exec_predict_of_exposed hx, hindex]
  | false => rw [exec_predict_of_hidden hx, exec_predict_of_hidden hx]

end Sys2Proof.Machine
end

section
/-! What a command keeps, what its response carries, and that it reads neither port. -/

namespace Sys2Proof.Machine

variable {s t : State}

/-- Settles O33: PROCESS_BRANCH and a legal UPDATE are excluded by the clauses they break; every other
command writes the response port only. -/
theorem commandsKeepWhatTheyDoNotWrite : Obligations.CommandsKeepWhatTheyDoNotWrite := by
  intro i s t he
  obtain ⟨hcfg, hin⟩ := exec_keeps_ports he
  refine ⟨hcfg, hin, ?_⟩
  obtain ⟨addr, taken, rfl, rfl⟩ | ⟨rfl, rfl⟩ | ⟨addr, rfl, -, rfl⟩ | ⟨idx, taken, rfl, hx, rfl⟩ |
    ⟨-, -, rfl⟩ := exec_next_cases he
  · exact ⟨nofun, nofun⟩
  · exact ⟨fun _ => ⟨rfl, rfl, rfl⟩, fun _ => ⟨rfl, rfl⟩⟩
  · exact ⟨fun _ => ⟨rfl, rfl, rfl⟩, fun _ => ⟨rfl, rfl⟩⟩
  · exact ⟨fun _ => by simp, fun h => by simp [trainedOutcome, hx] at h⟩
  · exact ⟨fun _ => ⟨rfl, rfl, rfl⟩, fun _ => ⟨rfl, rfl⟩⟩

/-- Every command is answered, with the `ovf` of the state it leaves (R77). -/
theorem exec_rsp {i : Instr} (he : exec i s = .next t) : ∃ r, t.rsp = some r ∧ r.ovf = t.ovf := by
  obtain ⟨addr, taken, rfl, rfl⟩ | ⟨rfl, rfl⟩ | ⟨addr, rfl, -, rfl⟩ | ⟨idx, taken, rfl, -, rfl⟩ |
    ⟨-, -, rfl⟩ := exec_next_cases he
  · exact ⟨_, finishBranch_rsp _ _ _ _, rfl⟩
  · exact ⟨_, rfl, rfl⟩
  · exact ⟨_, rfl, rfl⟩
  · exact ⟨_, rfl, by simp⟩
  · exact ⟨_, rfl, rfl⟩

/-- No command clears `ovf` (R32). -/
theorem exec_ovf_sticky {i : Instr} (he : exec i s = .next t) (ho : s.ovf = true) : t.ovf = true := by
  obtain ⟨-, -, hstats, -⟩ := commandsKeepWhatTheyDoNotWrite i s t he
  cases hi : isProcessBranch i with
  | false => exact (hstats hi).2.2.trans ho
  | true =>
    cases i with
    | processBranch addr taken =>
      cases (exec_processBranch addr taken s).symm.trans he
      simp [ho]
    | rateQuery => cases hi
    | predict addr => cases hi
    | update idx taken => cases hi

/-- Settles O32: `ovf` never falls, and a command that is no PROCESS_BRANCH keeps it. -/
theorem ovfIsStickyAndReported : Obligations.OvfIsStickyAndReported := by
  intro i s
  obtain ⟨t, he⟩ := exec_next i s
  obtain ⟨r, hr, hro⟩ := exec_rsp he
  refine ⟨t, r, he, hr, hro, exec_ovf_sticky he, fun hs ht => ?_⟩
  obtain ⟨-, -, hstats, -⟩ := commandsKeepWhatTheyDoNotWrite i s t he
  by_contra hi
  rw [(hstats (Bool.not_eq_true _ ▸ hi)).2.2, hs] at ht
  cases ht

/-- The end of PROCESS_BRANCH reads every field but the response port, which it writes anew. -/
theorem finishBranch_congr {u v : State} (hcfg : u.cfg = v.cfg) (hpht : u.pht = v.pht)
    (hgbh : u.gbh = v.gbh) (hp : u.predictions = v.predictions)
    (hm : u.mispredictions = v.mispredictions) (ho : u.ovf = v.ovf) (hin : u.inputs = v.inputs)
    (idx : Nat) (pred taken : Bool) :
    finishBranch u idx pred taken = finishBranch v idx pred taken := by
  ext1 <;> simp [State.phtRead, *]

/-- Settles O37, command by command: the port is written before the command ends and never read. -/
theorem responsePortIsNeverRead : Obligations.ResponsePortIsNeverRead := by
  intro i s r
  cases i with
  | processBranch addr taken =>
    rw [exec_processBranch, exec_processBranch]
    exact congrArg _ (finishBranch_congr (u := State.incPredictions { s with rsp := r })
      (v := s.incPredictions) rfl rfl rfl rfl rfl rfl rfl _ _ _)
  | rateQuery => rfl
  | predict addr =>
    cases hx : s.cfg.exposeSubops with
    | true =>
      rw [exec_predict_of_exposed hx, exec_predict_of_exposed (s := { s with rsp := r }) hx]
      rfl
    | false =>
      rw [exec_predict_of_hidden hx, exec_predict_of_hidden (s := { s with rsp := r }) hx]
      rfl
  | update idx taken =>
    cases hx : s.cfg.exposeSubops with
    | true =>
      rw [exec_update_of_exposed hx, exec_update_of_exposed (s := { s with rsp := r }) hx]
      exact congrArg _ (by ext1 <;> simp [State.phtRead])
    | false =>
      rw [exec_update_of_hidden hx, exec_update_of_hidden (s := { s with rsp := r }) hx]
      rfl

/-- The two queries only answer (R135, R140). -/
theorem exec_query {i : Instr} (hi : i = .rateQuery ∨ ∃ addr, i = .predict addr) (s : State) :
    ∃ r, exec i s = .next (s.respond r) := by
  obtain rfl | ⟨addr, rfl⟩ := hi
  · exact ⟨_, exec_rateQuery s⟩
  · cases hx : s.cfg.exposeSubops with
    | true => exact ⟨_, exec_predict_of_exposed hx addr⟩
    | false => exact ⟨_, exec_predict_of_hidden hx addr⟩

/-- Settles O36: a query leaves only its response, which the repeated query does not read. -/
theorem queriesAreIdempotent : Obligations.QueriesAreIdempotent := by
  intro i s hi
  obtain ⟨r, hr⟩ := exec_query hi s
  exact ⟨s.respond r, hr, (responsePortIsNeverRead i s (some r)).trans hr⟩

/-- A command does not see what is offered while it runs, and leaves it held. -/
theorem exec_offer {i : Instr} (he : exec i s = .next t) (x : Input) :
    exec i (s.offer x) = .next (t.offer x) := by
  obtain ⟨addr, taken, rfl, rfl⟩ | ⟨rfl, rfl⟩ | ⟨addr, rfl, hx, rfl⟩ | ⟨idx, taken, rfl, hx, rfl⟩ |
    ⟨hi, hx, rfl⟩ := exec_next_cases he
  · rw [exec_processBranch, State.index_congr (t := s.offer x) (s := s) rfl rfl]
    exact congrArg _ (by ext1 <;> simp [State.phtRead, State.predictRead])
  · rfl
  · rw [exec_predict_of_exposed (s := s.offer x) hx,
      State.index_congr (t := s.offer x) (s := s) rfl rfl]
    rfl
  · rw [exec_update_of_exposed (s := s.offer x) hx]
    exact congrArg _ (by ext1 <;> simp [State.phtRead])
  · obtain ⟨addr, rfl⟩ | ⟨idx, taken, rfl⟩ := hi
    · exact exec_predict_of_hidden (s := s.offer x) hx addr
    · exact exec_update_of_hidden (s := s.offer x) hx idx taken

/-- Taking the oldest of some held items commutes with offering one more. -/
theorem State.accept_offer_of_ne (h : s.inputs ≠ []) (x : Input) :
    (s.offer x).accept = s.accept.offer x := by
  simp [State.offer, State.accept, List.tail_append_of_ne_nil h]

/-- Settles O39: the oldest item is the same with one more offered, and neither a reset nor a command
touches what is held behind it. -/
theorem offeredItemsWaitTheirTurn : Obligations.OfferedItemsWaitTheirTurn := by
  intro s t x hne hs
  have haccept := State.accept_offer_of_ne hne x
  obtain ⟨hin, -⟩ | ⟨rest, hin, rfl⟩ | ⟨w, rest, i, hin, hw, he⟩ := step_cases hs
  · exact absurd hin hne
  · have hin' : (s.offer x).inputs = .reset :: (rest ++ [x]) := by simp [hin]
    rw [step_of_inputs_reset hin', State.accept_eq hin]
    rfl
  · have hin' : (s.offer x).inputs = .command w :: (rest ++ [x]) := by simp [hin]
    rw [step_of_inputs_command (s := s.offer x) hin' hw, ← State.accept_eq hin', haccept]
    exact exec_offer he x

end Sys2Proof.Machine
end

section
/-! Two commands in a row: PREDICT with UPDATE, and PREDICT after PROCESS_BRANCH. -/

namespace Sys2Proof.Machine

/-- Settles O34: PREDICT changes neither what UPDATE trains nor the counts, and PROCESS_BRANCH trains by the
same Update. -/
theorem predictThenUpdateEqualsProcessBranch : Obligations.PredictThenUpdateEqualsProcessBranch := by
  intro s addr taken hx
  refine ⟨_, _, _, _, _, exec_predict_of_exposed hx addr, rfl,
    exec_update_of_exposed (s := s.respond _) hx _ taken, exec_processBranch addr taken s,
    finishBranch_rsp _ _ _ _, ?pht, ?gbh, rfl, rfl, ?predictions, ?mispredictions, ?ovf⟩
  case pht => simp [State.phtRead]
  case gbh => simp
  case predictions => simp
  case mispredictions => simp
  case ovf => simp

/-- What the updated counter predicts, from the counter before. -/
theorem predictsTaken_counterNext : ∀ (c : Counter) (taken : Bool),
    predictsTaken (counterNext c taken) =
      if taken then decide (1 ≤ c.toNat) else decide (3 ≤ c.toNat) := by
  decide

/-- Settles O35: PREDICT reads the history and, at the trained index, the counter that PROCESS_BRANCH
wrote. -/
theorem trainedEntryIsReadBack : Obligations.TrainedEntryIsReadBack := by
  intro s a b taken hwf hx hn
  have hn0 : s.cfg.n ≠ 0 := Nat.one_le_iff_ne_zero.mp hn
  refine ⟨_, _, _, _, exec_processBranch a taken s, finishBranch_rsp _ _ _ _,
    exec_predict_of_exposed (by simpa using hx) b, rfl, ?index, fun hmet => ?direction⟩
  case index => simp [State.index_eq, hn0, historyNext_of_ne hn0]
  case direction =>
    rw [Response.direction_predTaken, State.predictRead]
    rw [Response.direction_idxOut, Response.direction_idxOut] at hmet
    rw [hmet, finishBranch_incPredictions_phtRead, State.phtRead_update_same hwf,
      predictsTaken_counterNext, Response.direction_idxOut]

end Sys2Proof.Machine
end

section
/-! Runs of commands, one at a time: the outcomes their history holds, and what their counts count. -/

namespace Sys2Proof.Machine

variable {s t : State}

theorem execAll_cons {i : Instr} (rest : List Instr) (h : exec i s = .next t) :
    execAll (i :: rest) s = execAll rest t := by
  rw [execAll, h]

theorem responsesOf_cons {i : Instr} (rest : List Instr) (h : exec i s = .next t) :
    responsesOf (i :: rest) s = t.rsp :: responsesOf rest t := by
  rw [responsesOf, h]

/-- A run of commands neither faults nor is refused (R180). -/
theorem execAll_next (commands : List Instr) (s : State) : ∃ t, execAll commands s = .next t := by
  induction commands generalizing s with
  | nil => exact ⟨s, rfl⟩
  | cons i rest ih =>
    obtain ⟨u, hu⟩ := exec_next i s
    rw [execAll_cons rest hu]
    exact ih u

/-- A run of a command and more is the run of those from where the command ends. -/
theorem execAll_cons_next {i : Instr} {rest : List Instr} (h : execAll (i :: rest) s = .next t) :
    ∃ u, exec i s = .next u ∧ execAll rest u = .next t := by
  obtain ⟨u, hu⟩ := exec_next i s
  exact ⟨u, hu, by rwa [execAll_cons rest hu] at h⟩

/-- An N-bit history that holds the given outcomes, most recent first, and zeros behind them (R118). -/
def HistoryHolds (n g : Nat) (outcomes : List Bool) : Prop :=
  g < 2 ^ n ∧ ∀ j, j < n → g.testBit (n - 1 - j) = (outcomes[j]?).getD false

theorem HistoryHolds.zero (n : Nat) : HistoryHolds n 0 [] :=
  ⟨Nat.two_pow_pos n, fun _ _ => Nat.zero_testBit _⟩

/-- One more outcome comes in at bit N-1 and moves the others one bit down (R115). -/
theorem HistoryHolds.next {n g : Nat} {outcomes : List Bool} (h : HistoryHolds n g outcomes)
    (taken : Bool) : HistoryHolds n (historyNext n g taken) (taken :: outcomes) := by
  obtain ⟨hg, hbits⟩ := h
  refine ⟨historyNext_lt hg taken, fun j hj => ?_⟩
  have hn : n ≠ 0 := Nat.ne_zero_of_lt hj
  rw [historyNext_eq_shiftRight_or hn, Nat.testBit_or, Nat.testBit_shiftRight,
    Nat.testBit_shiftLeft]
  cases j with
  | zero =>
    have htop : g.testBit (1 + (n - 1)) = false :=
      Nat.testBit_lt_two_pow (by rwa [Nat.add_sub_cancel' (Nat.one_le_iff_ne_zero.mpr hn)])
    cases taken <;> simp [htop]
  | succ j =>
    have hlow : ¬ n - 1 ≤ n - 1 - (j + 1) := by omega
    have hshift : 1 + (n - 1 - (j + 1)) = n - 1 - j := by omega
    rw [hshift, hbits j (Nat.lt_of_succ_lt hj)]
    simp [hlow]

/-- A command that gives an outcome to HistoryUpdate shifts it in. -/
theorem exec_gbh_of_trained {i : Instr} {taken : Bool} (he : exec i s = .next t)
    (hi : trainedOutcome s.cfg i = some taken) : t.gbh = historyNext s.cfg.n s.gbh taken := by
  obtain ⟨addr, b, rfl, rfl⟩ | ⟨rfl, rfl⟩ | ⟨addr, rfl, -, rfl⟩ | ⟨idx, b, rfl, hx, rfl⟩ |
    ⟨hi', hx, rfl⟩ := exec_next_cases he
  · cases hi
    simp
  · cases hi
  · cases hi
  · rw [trainedOutcome, if_pos hx] at hi
    cases hi
    simp
  · obtain ⟨addr, rfl⟩ | ⟨idx, b, rfl⟩ := hi' <;> simp [trainedOutcome, hx] at hi

/-- The outcome of a command, if it gives one, becomes the most recent of the history. -/
theorem HistoryHolds.exec {i : Instr} {outcomes : List Bool}
    (h : HistoryHolds s.cfg.n s.gbh outcomes) (he : exec i s = .next t) :
    HistoryHolds s.cfg.n t.gbh ((trainedOutcome s.cfg i).toList ++ outcomes) := by
  cases hi : trainedOutcome s.cfg i with
  | none =>
    obtain ⟨-, -, -, htrain⟩ := commandsKeepWhatTheyDoNotWrite i s t he
    rwa [(htrain hi).2]
  | some taken =>
    rw [exec_gbh_of_trained he hi]
    exact h.next taken

/-- The outcomes of a run come before those the history held at its start. -/
theorem HistoryHolds.execAll {commands : List Instr} {outcomes : List Bool}
    (h : HistoryHolds s.cfg.n s.gbh outcomes) (hrun : execAll commands s = .next t) :
    HistoryHolds s.cfg.n t.gbh
      ((commands.filterMap (trainedOutcome s.cfg)).reverse ++ outcomes) := by
  induction commands generalizing s outcomes with
  | nil =>
    cases hrun
    exact h
  | cons i rest ih =>
    obtain ⟨u, hu, hrest⟩ := execAll_cons_next hrun
    have hcfg := (exec_keeps_ports hu).1
    have hu' := h.exec hu
    rw [← hcfg] at hu'
    have hall := ih hu' hrest
    rw [hcfg] at hall
    cases hi : trainedOutcome s.cfg i <;> simpa [List.filterMap_cons, hi] using hall

/-- Settles O29: the run starts with a clear history, which holds no outcome. -/
theorem historyHoldsRecentOutcomes : Obligations.HistoryHoldsRecentOutcomes := by
  intro cfg commands t hrun j hj
  have hreset : HistoryHolds (State.resetOf cfg).cfg.n (State.resetOf cfg).gbh [] :=
    HistoryHolds.zero cfg.n
  have hbit := (hreset.execAll hrun).2 j hj
  rwa [List.append_nil] at hbit

/-- One command with unbounded counters: what it adds to each count (R129, R130). -/
theorem exec_counts_of_unbounded {i : Instr} (hw : s.cfg.cntW = .unbounded) (he : exec i s = .next t) :
    t.predictions = s.predictions + (if isProcessBranch i then 1 else 0) ∧
    t.mispredictions =
      s.mispredictions + (if t.rsp.any (fun r => r.mispredict) then 1 else 0) ∧
    t.ovf = s.ovf := by
  obtain ⟨addr, taken, rfl, rfl⟩ | ⟨rfl, rfl⟩ | ⟨addr, rfl, -, rfl⟩ | ⟨idx, taken, rfl, -, rfl⟩ |
    ⟨hi, -, rfl⟩ := exec_next_cases he
  · refine ⟨?_, ?_, ?_⟩
    · simp [isProcessBranch, incValue, hasRoom, hw]
    · simp only [finishBranch_mispredictions, finishBranch_rsp, State.incPredictions_cfg,
        State.incPredictions_mispredictions, hw, incValue, hasRoom, Option.any_some,
        Response.direction_mispredict]
      split <;> rfl
    · simp [hasRoom, hw]
  · exact ⟨rfl, rfl, rfl⟩
  · exact ⟨rfl, rfl, rfl⟩
  · exact ⟨by simp [isProcessBranch], by simp, by simp⟩
  · obtain ⟨addr, rfl⟩ | ⟨idx, taken, rfl⟩ := hi <;> exact ⟨rfl, rfl, rfl⟩

/-- A run with unbounded counters adds its branches and its reported mispredictions to
the counts it starts from. -/
theorem execAll_counts_of_unbounded {commands : List Instr} (hw : s.cfg.cntW = .unbounded)
    (hrun : execAll commands s = .next t) :
    t.predictions = s.predictions + commands.countP isProcessBranch ∧
    t.mispredictions = s.mispredictions +
      (responsesOf commands s).countP (fun r => r.any (fun q => q.mispredict)) ∧
    t.ovf = s.ovf := by
  induction commands generalizing s with
  | nil =>
    cases hrun
    exact ⟨rfl, rfl, rfl⟩
  | cons i rest ih =>
    obtain ⟨u, hu, hrest⟩ := execAll_cons_next hrun
    obtain ⟨hp, hm, ho⟩ := exec_counts_of_unbounded hw hu
    obtain ⟨hp', hm', ho'⟩ := ih (by rw [(exec_keeps_ports hu).1, hw]) hrest
    rw [responsesOf_cons rest hu, List.countP_cons, List.countP_cons]
    exact ⟨by omega, by omega, ho'.trans ho⟩

/-- Settles O30: the run starts from zero counts. -/
theorem statisticsCountBranches : Obligations.StatisticsCountBranches := by
  intro cfg commands hw
  obtain ⟨t, ht⟩ := execAll_next commands (State.resetOf cfg)
  obtain ⟨hp, hm, ho⟩ := execAll_counts_of_unbounded (s := State.resetOf cfg) hw ht
  exact ⟨t, ht, hp.trans (Nat.zero_add _), hm.trans (Nat.zero_add _), ho⟩

end Sys2Proof.Machine
end

section
/-! Finite statistics counters against unbounded ones: training does not see the width, and neither does
anything else until a count has no room. -/

namespace Sys2Proof.Machine

variable {s t u v : State}

/-- An unbounded counter always has room (R129). -/
@[simp] theorem hasRoom_unbounded (c : Nat) : hasRoom .unbounded c = true := rfl

/-- Training does not see the width of the counters. -/
theorem State.update_withUnboundedCounters (s : State) (idx : Nat) (taken : Bool) :
    s.withUnboundedCounters.update idx taken = (s.update idx taken).withUnboundedCounters := by
  by_cases hn : s.cfg.n = 0
  · simp [State.update, State.historyUpdate, State.gbhWrite, hn, State.withUnboundedCounters,
      State.counterUpdate, State.phtWrite, State.phtRead]
  · simp [State.update, State.historyUpdate, State.gbhWrite, hn, State.withUnboundedCounters,
      State.counterUpdate, State.phtWrite, State.phtRead, State.gbhRead]

/-- `Inc` with room counts alike at every width (R129). -/
theorem State.incPredictions_withUnboundedCounters
    (h : hasRoom s.cfg.cntW s.predictions = true) :
    s.withUnboundedCounters.incPredictions = s.incPredictions.withUnboundedCounters := by
  simp [State.incPredictions, State.withUnboundedCounters, incValue, h]

theorem State.incMispredictions_withUnboundedCounters
    (h : hasRoom s.cfg.cntW s.mispredictions = true) :
    s.withUnboundedCounters.incMispredictions = s.incMispredictions.withUnboundedCounters := by
  simp [State.incMispredictions, State.withUnboundedCounters, incValue, h]

/-- With room for the misprediction it may count, the end of PROCESS_BRANCH does not see the width. -/
theorem finishBranch_withUnboundedCounters {idx : Nat} {pred taken : Bool}
    (h : (pred != taken) = true → hasRoom s.cfg.cntW s.mispredictions = true) :
    finishBranch s.withUnboundedCounters idx pred taken =
      (finishBranch s idx pred taken).withUnboundedCounters := by
  have hcount : s.withUnboundedCounters.countMisprediction (pred != taken) =
      (s.countMisprediction (pred != taken)).withUnboundedCounters := by
    cases hmis : pred != taken with
    | false => rfl
    | true => exact State.incMispredictions_withUnboundedCounters (h hmis)
  rw [finishBranch, hcount, State.update_withUnboundedCounters]
  rfl

/-- What training and prediction read is the same in both states; the counts and their width may
differ. -/
structure SameTraining (s v : State) : Prop where
  m : v.cfg.m = s.cfg.m
  n : v.cfg.n = s.cfg.n
  exposeSubops : v.cfg.exposeSubops = s.cfg.exposeSubops
  pht : v.pht = s.pht
  gbh : v.gbh = s.gbh

theorem sameTraining_withUnboundedCounters (s : State) : SameTraining s s.withUnboundedCounters :=
  ⟨rfl, rfl, rfl, rfl, rfl⟩

theorem SameTraining.index (h : SameTraining s v) (addr : Nat) : v.index addr = s.index addr := by
  rw [State.index_eq, State.index_eq, h.m, h.n, h.gbh]

theorem SameTraining.phtRead (h : SameTraining s v) (i : Nat) : v.phtRead i = s.phtRead i :=
  State.phtRead_congr h.pht i

theorem SameTraining.predictRead (h : SameTraining s v) (i : Nat) :
    v.predictRead i = s.predictRead i :=
  congrArg predictsTaken (h.phtRead i)

/-- A command trains and predicts alike from both states. -/
theorem SameTraining.exec {i : Instr} (h : SameTraining s v) (hs : exec i s = .next t)
    (hv : exec i v = .next u) : SameTraining t u := by
  have hcfg := (exec_keeps_ports hs).1
  have hcfg' := (exec_keeps_ports hv).1
  have htrained : u.pht = t.pht ∧ u.gbh = t.gbh := by
    obtain ⟨addr, taken, rfl, rfl⟩ | ⟨rfl, rfl⟩ | ⟨addr, rfl, hx, rfl⟩ | ⟨idx, taken, rfl, hx, rfl⟩ |
      ⟨hi, hx, rfl⟩ := exec_next_cases hs
    · cases (exec_processBranch addr taken v).symm.trans hv
      simp [State.phtRead, h.index, h.pht, h.gbh, h.n]
    · cases (exec_rateQuery v).symm.trans hv
      exact ⟨h.pht, h.gbh⟩
    · cases (exec_predict_of_exposed (h.exposeSubops.trans hx) addr).symm.trans hv
      exact ⟨h.pht, h.gbh⟩
    · cases (exec_update_of_exposed (h.exposeSubops.trans hx) idx taken).symm.trans hv
      simp [h.phtRead, h.pht, h.gbh, h.n]
    · obtain ⟨addr, rfl⟩ | ⟨idx, taken, rfl⟩ := hi
      · cases (exec_predict_of_hidden (h.exposeSubops.trans hx) addr).symm.trans hv
        exact ⟨h.pht, h.gbh⟩
      · cases (exec_update_of_hidden (h.exposeSubops.trans hx) idx taken).symm.trans hv
        exact ⟨h.pht, h.gbh⟩
  obtain ⟨hpht, hgbh⟩ := htrained
  exact ⟨by rw [hcfg, hcfg', h.m], by rw [hcfg, hcfg', h.n], by rw [hcfg, hcfg', h.exposeSubops],
    hpht, hgbh⟩

/-- Commands train and predict alike from both states. -/
theorem SameTraining.execAll {commands : List Instr} (h : SameTraining s v)
    (hs : execAll commands s = .next t) (hv : execAll commands v = .next u) : SameTraining t u := by
  induction commands generalizing s v with
  | nil =>
    cases hs
    cases hv
    exact h
  | cons i rest ih =>
    obtain ⟨s', hs', hsrest⟩ := execAll_cons_next hs
    obtain ⟨v', hv', hvrest⟩ := execAll_cons_next hv
    exact ih (h.exec hs' hv') hsrest hvrest

/-- A saturated count has no room (R129). -/
theorem hasRoom_saturated (w : Nat) : hasRoom (.bits w) (2 ^ w - 1) = false := by
  simp [hasRoom]

/-- Settles O31: `Inc` finds no room, sets `ovf` and holds the count; the rest of the command reads
neither. -/
theorem saturationSetsOvfAndCompletes : Obligations.SaturationSetsOvfAndCompletes := by
  intro s addr w taken hw hp
  have hfull : hasRoom s.cfg.cntW s.predictions = false := by rw [hw, hp, hasRoom_saturated]
  have hsame := sameTraining_withUnboundedCounters s
  have hs := exec_processBranch addr taken s
  have hu := exec_processBranch addr taken s.withUnboundedCounters
  rw [hsame.index, hsame.predictRead] at hu
  have hafter := hsame.exec hs hu
  refine ⟨_, _, hs, hu, by simp [hfull], ?_, hafter.pht.symm, hafter.gbh.symm,
    _, _, finishBranch_rsp _ _ _ _, finishBranch_rsp _ _ _ _, rfl, by simp [hfull], rfl, rfl, rfl⟩
  rw [finishBranch_predictions, State.incPredictions_predictions,
    incValue_of_hasRoom_eq_false hfull, hp]

/-- PROCESS_BRANCH that leaves `ovf` clear found room for what it counted. -/
theorem hasRoom_of_finishBranch_ovf {idx : Nat} {pred taken : Bool}
    (h : (finishBranch s.incPredictions idx pred taken).ovf = false) :
    hasRoom s.cfg.cntW s.predictions = true ∧
      ((pred != taken) = true → hasRoom s.cfg.cntW s.mispredictions = true) := by
  simp only [finishBranch_ovf, State.incPredictions_ovf, State.incPredictions_cfg,
    State.incPredictions_mispredictions, Bool.or_eq_false_iff, Bool.not_eq_false'] at h
  obtain ⟨⟨-, hp⟩, hm⟩ := h
  refine ⟨hp, fun hmis => ?_⟩
  simpa [hmis] using hm

/-- As long as a command leaves `ovf` clear, the width of the counters is in none of its effect. -/
theorem exec_withUnboundedCounters {i : Instr} (he : exec i s = .next t) (ho : t.ovf = false) :
    exec i s.withUnboundedCounters = .next t.withUnboundedCounters := by
  have hsame := sameTraining_withUnboundedCounters s
  obtain ⟨addr, taken, rfl, rfl⟩ | ⟨rfl, rfl⟩ | ⟨addr, rfl, hx, rfl⟩ | ⟨idx, taken, rfl, hx, rfl⟩ |
    ⟨hi, hx, rfl⟩ := exec_next_cases he
  · obtain ⟨hp, hm⟩ := hasRoom_of_finishBranch_ovf ho
    rw [exec_processBranch, hsame.index, hsame.predictRead]
    rw [State.incPredictions_withUnboundedCounters hp]
    exact congrArg _ (finishBranch_withUnboundedCounters hm)
  · rfl
  · rw [exec_predict_of_exposed (s := s.withUnboundedCounters) hx, hsame.index, hsame.predictRead]
    rfl
  · rw [exec_update_of_exposed (s := s.withUnboundedCounters) hx,
      State.update_withUnboundedCounters]
    rfl
  · obtain ⟨addr, rfl⟩ | ⟨idx, taken, rfl⟩ := hi
    · exact exec_predict_of_hidden (s := s.withUnboundedCounters) hx addr
    · exact exec_update_of_hidden (s := s.withUnboundedCounters) hx idx taken

/-- No run of commands clears `ovf` (R32). -/
theorem execAll_ovf_sticky {commands : List Instr} (h : execAll commands s = .next t)
    (ho : s.ovf = true) : t.ovf = true := by
  induction commands generalizing s with
  | nil =>
    cases h
    exact ho
  | cons i rest ih =>
    obtain ⟨u, hu, hrest⟩ := execAll_cons_next h
    exact ih hrest (exec_ovf_sticky hu ho)

/-- A run that ends with `ovf` clear had it clear all along, so it is the run with unbounded counters. -/
theorem execAll_withUnboundedCounters {commands : List Instr} (h : execAll commands s = .next t)
    (ho : t.ovf = false) :
    execAll commands s.withUnboundedCounters = .next t.withUnboundedCounters ∧
      responsesOf commands s = responsesOf commands s.withUnboundedCounters := by
  induction commands generalizing s with
  | nil =>
    cases h
    exact ⟨rfl, rfl⟩
  | cons i rest ih =>
    obtain ⟨u, hu, hrest⟩ := execAll_cons_next h
    have huo : u.ovf = false := by
      by_contra hset
      rw [execAll_ovf_sticky hrest (Bool.not_eq_false _ ▸ hset)] at ho
      cases ho
    have hu' := exec_withUnboundedCounters hu huo
    obtain ⟨hrun, hrsp⟩ := ih hrest
    exact ⟨(execAll_cons rest hu').trans hrun, by
      rw [responsesOf_cons rest hu, responsesOf_cons rest hu', hrsp]; rfl⟩

/-- Settles O44: both runs train alike, and while `ovf` is clear they are the same run. -/
theorem finiteCountersAgreeUntilOverflow : Obligations.FiniteCountersAgreeUntilOverflow := by
  intro cfg commands
  obtain ⟨t, ht⟩ := execAll_next commands (State.resetOf cfg)
  obtain ⟨u, hu⟩ := execAll_next commands (State.resetOf cfg).withUnboundedCounters
  have hafter := (sameTraining_withUnboundedCounters (State.resetOf cfg)).execAll ht hu
  refine ⟨t, u, ht, hu, hafter.pht.symm, hafter.gbh.symm, fun ho => ?_⟩
  obtain ⟨hu', hrsp⟩ := execAll_withUnboundedCounters ht ho
  exact ⟨Host.Outcome.next.inj (hu'.symm.trans hu), hrsp⟩

end Sys2Proof.Machine
end

section
/-! The response word: its layout read field by field, and the width of every response. -/

namespace Sys2Proof.Machine

variable {s t : State}

/-- A number put together from a low part of `k` bits and a high part has the high part's bits above
those of the low part. -/
theorem bitField_append {k a : Nat} (ha : a < 2 ^ k) (x lo width : Nat) :
    bitField (a + 2 ^ k * x) (k + lo) width = bitField x lo width := by
  rw [bitField, bitField, Nat.pow_add, ← Nat.div_div_eq_div_mul,
    Nat.add_mul_div_left _ _ (Nat.two_pow_pos k), Nat.div_eq_of_lt ha, Nat.zero_add]

/-- The low part itself is the lowest field. -/
theorem bitField_low {k a : Nat} (ha : a < 2 ^ k) (x : Nat) : bitField (a + 2 ^ k * x) 0 k = a := by
  rw [bitField, Nat.pow_zero, Nat.div_one, Nat.add_mul_mod_self_left, Nat.mod_eq_of_lt ha]

/-- A number of `k` bits is its own lowest field. -/
theorem bitField_of_lt {k a : Nat} (ha : a < 2 ^ k) : bitField a 0 k = a := by
  rw [bitField, Nat.pow_zero, Nat.div_one, Nat.mod_eq_of_lt ha]

/-- The widths of the two parts add up. -/
theorem append_lt {k j a x : Nat} (ha : a < 2 ^ k) (hx : x < 2 ^ j) : a + 2 ^ k * x < 2 ^ (k + j) :=
  calc a + 2 ^ k * x < 2 ^ k * (x + 1) := by rw [Nat.mul_succ]; omega
    _ ≤ 2 ^ k * 2 ^ j := Nat.mul_le_mul_left _ hx
    _ = 2 ^ (k + j) := (Nat.pow_add 2 k j).symm

/-- The response word as its fields put together one above the other (R76). -/
theorem Response.packFields_eq (m w : Nat) (r : Response) : r.packFields m w =
    r.status.code + 2 ^ 2 * (r.ovf.toNat + 2 ^ 1 * (r.predTaken.toNat + 2 ^ 1 * (r.mispredict.toNat +
      2 ^ 1 * (r.idxOut + 2 ^ m * (r.predCount + 2 ^ w * r.mispredCount))))) := by
  rw [Response.packFields]
  ring

theorem Status.code_lt (st : Status) : st.code < 2 ^ 2 := by cases st <;> decide

/-- A response whose index and counts fit their fields (R76). -/
structure Response.Fits (m w : Nat) (r : Response) : Prop where
  idxOut : r.idxOut < 2 ^ m
  predCount : r.predCount < 2 ^ w
  mispredCount : r.mispredCount < 2 ^ w

/-- A packed response has `RSP_W` bits. -/
theorem Response.Fits.packFields_lt {m w : Nat} {r : Response} (h : r.Fits m w) :
    r.packFields m w < 2 ^ rspW m w := by
  have hw : rspW m w = 2 + (1 + (1 + (1 + (m + (w + w))))) := by rw [rspW]; omega
  rw [hw, Response.packFields_eq]
  exact append_lt (Status.code_lt _) (append_lt (Bool.toNat_lt _) (append_lt (Bool.toNat_lt _)
    (append_lt (Bool.toNat_lt _) (append_lt h.idxOut (append_lt h.predCount h.mispredCount)))))

/-- The reader of a word whose status is not reserved gives its fields. -/
theorem Response.unpack_of_status {m w v : Nat} {st : Status} (h : bitField v 0 2 = st.code) :
    Response.unpack m w v = .ok
      { status := st
        ovf := bitField v 2 1 == 1
        predTaken := bitField v 3 1 == 1
        mispredict := bitField v 4 1 == 1
        idxOut := bitField v 5 m
        predCount := bitField v (m + 5) w
        mispredCount := bitField v (m + w + 5) w } := by
  cases st <;> simp [Response.unpack, h, Status.code]

/-- The fields of a packed response read back, each from above those before it. -/
theorem Response.Fits.bitFields_packFields {m w : Nat} {r : Response} (h : r.Fits m w) :
    bitField (r.packFields m w) 0 2 = r.status.code ∧
    bitField (r.packFields m w) 2 1 = r.ovf.toNat ∧
    bitField (r.packFields m w) 3 1 = r.predTaken.toNat ∧
    bitField (r.packFields m w) 4 1 = r.mispredict.toNat ∧
    bitField (r.packFields m w) 5 m = r.idxOut ∧
    bitField (r.packFields m w) (m + 5) w = r.predCount ∧
    bitField (r.packFields m w) (m + w + 5) w = r.mispredCount := by
  have hst := Status.code_lt r.status
  have hbit (b : Bool) : b.toNat < 2 ^ 1 := Bool.toNat_lt b
  have hidx : 5 = 2 + (1 + (1 + (1 + 0))) := rfl
  have hpred : m + 5 = 2 + (1 + (1 + (1 + (m + 0)))) := by omega
  have hmis : m + w + 5 = 2 + (1 + (1 + (1 + (m + (w + 0))))) := by omega
  rw [Response.packFields_eq, hpred, hmis]
  refine ⟨bitField_low hst _, ?_, ?_, ?_, ?_, ?_, ?_⟩
  · exact (bitField_append hst _ 0 1).trans (bitField_low (hbit _) _)
  · exact (bitField_append hst _ 1 1).trans
      ((bitField_append (hbit _) _ 0 1).trans (bitField_low (hbit _) _))
  · exact (bitField_append hst _ 2 1).trans ((bitField_append (hbit _) _ 1 1).trans
      ((bitField_append (hbit _) _ 0 1).trans (bitField_low (hbit _) _)))
  · rw [hidx, bitField_append hst, bitField_append (hbit _), bitField_append (hbit _),
      bitField_append (hbit _), bitField_low h.idxOut]
  · rw [bitField_append hst, bitField_append (hbit _), bitField_append (hbit _),
      bitField_append (hbit _), bitField_append h.idxOut, bitField_low h.predCount]
  · rw [bitField_append hst, bitField_append (hbit _), bitField_append (hbit _),
      bitField_append (hbit _), bitField_append h.idxOut, bitField_append h.predCount,
      bitField_of_lt h.mispredCount]

/-- A one-bit field reads back as the Boolean put there. -/
theorem bool_toNat_beq_one (b : Bool) : (b.toNat == 1) = b := by cases b <;> rfl

/-- A consumer reads a packed response back. -/
theorem Response.Fits.unpack_packFields {m w : Nat} {r : Response} (h : r.Fits m w) :
    Response.unpack m w (r.packFields m w) = .ok r := by
  obtain ⟨hst, hovf, hpred, hmis, hidx, hpc, hmc⟩ := h.bitFields_packFields
  rw [Response.unpack_of_status hst, hovf, hpred, hmis, hidx, hpc, hmc, bool_toNat_beq_one,
    bool_toNat_beq_one, bool_toNat_beq_one]

/-- The reader faults on the status codes 10 and 11 (I5). -/
theorem Response.unpack_of_reserved {m w v : Nat} (h : 2 ≤ v % 4) :
    Response.unpack m w v = .error .reservedStatus := by
  have hst : bitField v 0 2 = v % 4 := opField_eq v
  obtain h2 | h3 : v % 4 = 2 ∨ v % 4 = 3 := by omega
  · simp [Response.unpack, hst, h2]
  · simp [Response.unpack, hst, h3]

/-- The response word with finite counters (R76). -/
theorem Response.pack_of_bits {cfg : Config} {w : Nat} (hw : cfg.cntW = .bits w) (r : Response) :
    r.pack cfg = some (r.packFields cfg.m w) := by
  rw [Response.pack, hw]

/-- A response that fits is packed into `RSP_W` bits and read back. -/
theorem Response.Fits.pack_roundtrip {cfg : Config} {w : Nat} {r : Response}
    (hw : cfg.cntW = .bits w) (h : r.Fits cfg.m w) :
    ∃ v, r.pack cfg = some v ∧ v < 2 ^ (5 + cfg.m + 2 * w) ∧ Response.unpack cfg.m w v = .ok r :=
  ⟨_, Response.pack_of_bits hw r, h.packFields_lt, h.unpack_packFields⟩

/-- Settles O42, from the round trip of a response that fits and from the reserved codes. -/
theorem responseWordIsReadBack : Obligations.ResponseWordIsReadBack :=
  ⟨fun _ _ _ hw hidx hp hm => Response.Fits.pack_roundtrip hw ⟨hidx, hp, hm⟩,
    fun _ _ _ => Response.unpack_of_reserved⟩

/-- The counts of a state with the invariant fit finite counters (R30). -/
theorem State.Inv.counts_lt (h : s.Inv) {w : Nat} (hw : s.cfg.cntW = .bits w) :
    s.predictions < 2 ^ w ∧ s.mispredictions < 2 ^ w := by
  have hfit := h.predictions_fit
  rw [hw] at hfit
  have hp : s.predictions < 2 ^ w := of_decide_eq_true hfit
  exact ⟨hp, h.mispredictions_le.trans_lt hp⟩

/-- A response without counts fits if its index does: the counts are 0. -/
theorem Response.Fits.of_idxOut {m w : Nat} {r : Response} (hidx : r.idxOut < 2 ^ m)
    (hp : r.predCount = 0) (hm : r.mispredCount = 0) : r.Fits m w :=
  ⟨hidx, hp ▸ Nat.two_pow_pos w, hm ▸ Nat.two_pow_pos w⟩

/-- Every command of a state with the invariant is answered by a response that fits: the index is inside
the table, and the counts are those of the state. -/
theorem exec_rsp_fits {i : Instr} {w : Nat} (h : s.Inv) (hw : s.cfg.cntW = .bits w)
    (he : exec i s = .next t) : ∃ r, t.rsp = some r ∧ r.Fits s.cfg.m w := by
  have hzero : 0 < 2 ^ s.cfg.m := Nat.two_pow_pos _
  obtain ⟨addr, taken, rfl, rfl⟩ | ⟨rfl, rfl⟩ | ⟨addr, rfl, -, rfl⟩ | ⟨idx, taken, rfl, -, rfl⟩ |
    ⟨-, -, rfl⟩ := exec_next_cases he
  · exact ⟨_, finishBranch_rsp _ _ _ _, .of_idxOut (h.index_lt addr) rfl rfl⟩
  · exact ⟨_, rfl, hzero, (h.counts_lt hw).1, (h.counts_lt hw).2⟩
  · exact ⟨_, rfl, .of_idxOut (h.index_lt addr) rfl rfl⟩
  · exact ⟨_, rfl, .of_idxOut hzero rfl rfl⟩
  · exact ⟨_, rfl, .of_idxOut hzero rfl rfl⟩

/-- Settles O43: each response fits, so it is packed and read back. -/
theorem responsesFitTheirWord : Obligations.ResponsesFitTheirWord := by
  intro i s w h _ hw
  obtain ⟨t, he⟩ := exec_next i s
  obtain ⟨r, hr, hfits⟩ := exec_rsp_fits h hw he
  obtain ⟨v, hv⟩ := hfits.pack_roundtrip hw
  exact ⟨t, r, v, he, hr, hv⟩

end Sys2Proof.Machine
end

section
/-! Rounding to binary64: the integer rounding is nearest with ties to even, the exponent is that of the
quotient, and so the scaled mantissa has the bits of the format (log 17). -/

namespace Sys2Proof.Machine

variable {num den : Nat}

/-! The integer nearest to a quotient. -/

theorem roundTiesEven_of_lt (h : 2 * (num % den) < den) : roundTiesEven num den = num / den :=
  if_pos h

theorem roundTiesEven_of_gt (h : den < 2 * (num % den)) : roundTiesEven num den = num / den + 1 :=
  (if_neg (by omega)).trans (if_pos h)

theorem roundTiesEven_of_eq (h : 2 * (num % den) = den) :
    roundTiesEven num den = num / den + num / den % 2 :=
  (if_neg (by omega)).trans (if_neg (by omega))

/-- A quotient is its integer part and its remainder's share. -/
theorem cast_div_eq_div_add_mod (hd : 0 < den) :
    (num : Rat) / den = (num / den : Nat) + (num % den : Nat) / den := by
  have hd' : (den : Rat) ≠ 0 := by positivity
  have hnum : (den : Rat) * (num / den : Nat) + (num % den : Nat) = num := by
    exact_mod_cast Nat.div_add_mod num den
  field_simp
  exact hnum.symm

/-- The rounded quotient is at most a half away, and even where it is exactly that far. -/
theorem abs_sub_roundTiesEven (hd : 0 < den) :
    |(num : Rat) / den - roundTiesEven num den| ≤ 1 / 2 ∧
    (|(num : Rat) / den - roundTiesEven num den| = 1 / 2 → roundTiesEven num den % 2 = 0) := by
  have hd' : (0 : Rat) < den := by exact_mod_cast hd
  rw [cast_div_eq_div_add_mod hd]
  obtain h | h | h := Nat.lt_trichotomy (2 * (num % den)) den
  · have hlt : ((num % den : Nat) : Rat) / den < 1 / 2 := by
      rw [div_lt_div_iff₀ hd' (by norm_num)]
      exact_mod_cast (by omega : num % den * 2 < 1 * den)
    rw [roundTiesEven_of_lt h, add_sub_cancel_left, abs_of_nonneg (by positivity)]
    exact ⟨hlt.le, fun he => absurd he hlt.ne⟩
  · have heq : ((num % den : Nat) : Rat) / den = 1 / 2 := by
      rw [div_eq_div_iff hd'.ne' (by norm_num)]
      exact_mod_cast (by omega : num % den * 2 = 1 * den)
    have heven : (num / den + num / den % 2) % 2 = 0 := by omega
    rw [roundTiesEven_of_eq h, heq]
    refine ⟨?_, fun _ => heven⟩
    obtain hq | hq := Nat.mod_two_eq_zero_or_one (num / den) <;> rw [hq] <;> push_cast <;>
      rw [abs_le] <;> constructor <;> linarith
  · have hgt : 1 / 2 < ((num % den : Nat) : Rat) / den := by
      rw [div_lt_div_iff₀ (by norm_num) hd']
      exact_mod_cast (by omega : 1 * den < num % den * 2)
    have hlt : ((num % den : Nat) : Rat) / den < 1 := by
      rw [div_lt_one hd']
      exact_mod_cast Nat.mod_lt num hd
    rw [roundTiesEven_of_gt h, Nat.cast_add, Nat.cast_one, add_sub_add_left_eq_sub,
      abs_of_neg (by linarith)]
    exact ⟨by linarith, fun he => by linarith⟩

/-- No integer is nearer to the quotient than the rounded one; another is as near only in a tie, and then
the rounded one is even. -/
theorem roundTiesEven_nearest (hd : 0 < den) (j : Nat) :
    |(num : Rat) / den - roundTiesEven num den| ≤ |(num : Rat) / den - j| ∧
    (|(num : Rat) / den - roundTiesEven num den| = |(num : Rat) / den - j| →
      j ≠ roundTiesEven num den → roundTiesEven num den % 2 = 0) := by
  obtain ⟨hhalf, htie⟩ := abs_sub_roundTiesEven (num := num) hd
  by_cases hj : j = roundTiesEven num den
  · subst hj
    exact ⟨le_rfl, fun _ h => absurd rfl h⟩
  · have hapart : (1 : Rat) ≤ |(roundTiesEven num den : Rat) - j| := by
      have : (1 : Int) ≤ |(roundTiesEven num den : Int) - j| := Int.one_le_abs (by omega)
      exact_mod_cast this
    have htriangle := abs_sub_le (roundTiesEven num den : Rat) ((num : Rat) / den) j
    rw [abs_sub_comm (roundTiesEven num den : Rat) ((num : Rat) / den)] at htriangle
    exact ⟨by linarith, fun he _ => htie (by linarith)⟩

/-- Rounding does not pass an integer bound. -/
theorem roundTiesEven_le {c : Nat} (hd : 0 < den) (h : num ≤ c * den) : roundTiesEven num den ≤ c := by
  have hx : (num : Rat) / den ≤ c := by
    rw [div_le_iff₀ (by exact_mod_cast hd)]
    exact_mod_cast h
  have hhalf := (abs_le.1 (abs_sub_roundTiesEven (num := num) hd).1).1
  have hlt : (roundTiesEven num den : Rat) < (c + 1 : Nat) := by push_cast; linarith
  exact Nat.lt_succ_iff.1 (by exact_mod_cast hlt)

theorem le_roundTiesEven {c : Nat} (hd : 0 < den) (h : c * den ≤ num) : c ≤ roundTiesEven num den := by
  have hx : (c : Rat) ≤ (num : Rat) / den := by
    rw [le_div_iff₀ (by exact_mod_cast hd)]
    exact_mod_cast h
  have hhalf := (abs_le.1 (abs_sub_roundTiesEven (num := num) hd).1).2
  have hlt : (c : Rat) < (roundTiesEven num den + 1 : Nat) := by push_cast; linarith
  exact Nat.lt_succ_iff.1 (by exact_mod_cast hlt)

/-! The exponent of a quotient. -/

/-- A power of two with an integer exponent, as a quotient of two with natural ones. -/
theorem two_zpow_eq_div (d : Int) : (2 : Rat) ^ d = 2 ^ d.toNat / 2 ^ (-d).toNat := by
  obtain ⟨n, rfl | rfl⟩ := d.eq_nat_or_neg <;> simp

/-- The comparison that `ratioLog2` makes. -/
theorem two_zpow_le_div_iff (hd : 0 < den) (d : Int) :
    (2 : Rat) ^ d ≤ num / den ↔ den * 2 ^ d.toNat ≤ num * 2 ^ (-d).toNat := by
  rw [two_zpow_eq_div, div_le_div_iff₀ (by positivity) (by exact_mod_cast hd), mul_comm (den : Nat)]
  exact_mod_cast Iff.rfl

/-- A number lies between the powers of two of its logarithm. -/
theorem two_zpow_log2_le (h : num ≠ 0) :
    (2 : Rat) ^ (Nat.log2 num : Int) ≤ num ∧ (num : Rat) < 2 ^ (Nat.log2 num + 1 : Int) := by
  constructor
  · rw [zpow_natCast]
    exact_mod_cast Nat.log2_self_le h
  · have := Nat.lt_log2_self (n := num)
    exact_mod_cast this

/-- The difference of the logarithms is the exponent of the quotient or one above it. -/
theorem two_zpow_log2_sub_log2 (hn : num ≠ 0) (hd : den ≠ 0) :
    (2 : Rat) ^ ((Nat.log2 num : Int) - Nat.log2 den - 1) ≤ num / den ∧
      (num : Rat) / den < 2 ^ ((Nat.log2 num : Int) - Nat.log2 den + 1) := by
  obtain ⟨hnlow, hnhigh⟩ := two_zpow_log2_le hn
  obtain ⟨hdlow, hdhigh⟩ := two_zpow_log2_le hd
  have hpos : (0 : Rat) < den := by positivity
  constructor
  · rw [le_div_iff₀ hpos]
    calc (2 : Rat) ^ ((Nat.log2 num : Int) - Nat.log2 den - 1) * den
        ≤ 2 ^ ((Nat.log2 num : Int) - Nat.log2 den - 1) * 2 ^ (Nat.log2 den + 1 : Int) := by gcongr
      _ = 2 ^ (Nat.log2 num : Int) := by rw [← zpow_add₀ two_ne_zero]; ring_nf
      _ ≤ num := hnlow
  · rw [div_lt_iff₀ hpos]
    calc (num : Rat) < 2 ^ (Nat.log2 num + 1 : Int) := hnhigh
      _ = 2 ^ ((Nat.log2 num : Int) - Nat.log2 den + 1) * 2 ^ (Nat.log2 den : Int) := by
        rw [← zpow_add₀ two_ne_zero]; ring_nf
      _ ≤ 2 ^ ((Nat.log2 num : Int) - Nat.log2 den + 1) * den := by gcongr

/-- `ratioLog2` is the exponent of the quotient: `2^e <= num / den < 2^(e+1)`. -/
theorem ratioLog2_spec (hn : 0 < num) (hd : 0 < den) :
    (2 : Rat) ^ ratioLog2 num den ≤ num / den ∧
      (num : Rat) / den < 2 ^ (ratioLog2 num den + 1) := by
  obtain ⟨hlow, hhigh⟩ := two_zpow_log2_sub_log2 hn.ne' hd.ne'
  have hiff := two_zpow_le_div_iff (num := num) hd ((Nat.log2 num : Int) - Nat.log2 den)
  rw [ratioLog2]
  split
  next h => exact ⟨hiff.2 h, hhigh⟩
  next h =>
    rw [sub_add_cancel]
    exact ⟨hlow, not_le.1 (mt hiff.1 h)⟩

/-! The rounded value and its grid. -/

/-- Below `2^53` the rounding is that of `num * 2^k / den` for a scale `k` of at most 1074 that leaves it
at most 53 significant bits, and exactly 53 unless the scale is the largest. -/
theorem rne64_of_lt (hn : 0 < num) (hd : 0 < den) (hlt : num < den * 2 ^ 53) :
    ∃ k : Nat, rne64 num den = ⟨roundTiesEven (num * 2 ^ k) den, k⟩ ∧ k ≤ 1074 ∧
      num * 2 ^ k < 2 ^ 53 * den ∧ (2 ^ 52 * den ≤ num * 2 ^ k ∨ k = 1074) := by
  obtain ⟨hlow, hhigh⟩ := ratioLog2_spec hn hd
  have hpos : (0 : Rat) < den := by positivity
  have hexp : ratioLog2 num den < 53 := by
    have hx : (num : Rat) / den < 2 ^ (53 : Int) := by
      rw [div_lt_iff₀ hpos, mul_comm]
      exact_mod_cast hlt
    exact (zpow_lt_zpow_iff_right₀ one_lt_two).1 (hlow.trans_lt hx)
  obtain ⟨k, hk⟩ : ∃ k : Nat, fractionBits num den = k :=
    Int.eq_ofNat_of_zero_le (by rw [fractionBits]; omega)
  have hk' : (k : Int) = min 1074 (52 - ratioLog2 num den) := hk.symm
  refine ⟨k, by simp [rne64, hn.ne', hk], by omega, ?_, ?_⟩
  · have hx : (num : Rat) / den * 2 ^ (k : Int) < 2 ^ (53 : Int) :=
      calc (num : Rat) / den * 2 ^ (k : Int)
          < 2 ^ (ratioLog2 num den + 1) * 2 ^ (k : Int) := by gcongr
        _ = 2 ^ (ratioLog2 num den + 1 + k) := (zpow_add₀ two_ne_zero _ _).symm
        _ ≤ 2 ^ (53 : Int) := zpow_le_zpow_right₀ one_le_two (by omega)
    rw [div_mul_eq_mul_div, div_lt_iff₀ hpos] at hx
    exact_mod_cast hx
  · by_cases hmax : k = 1074
    · exact .inr hmax
    · have hx : (2 : Rat) ^ (52 : Int) ≤ num / den * 2 ^ (k : Int) :=
        calc (2 : Rat) ^ (52 : Int) = 2 ^ (ratioLog2 num den) * 2 ^ (k : Int) := by
              rw [← zpow_add₀ two_ne_zero]; congr 1; omega
          _ ≤ num / den * 2 ^ (k : Int) := by gcongr
      rw [div_mul_eq_mul_div, le_div_iff₀ hpos] at hx
      exact .inl (by exact_mod_cast hx)

/-- Distances from a number to the values of a grid are those of the scaled number to the integers. -/
theorem abs_sub_div_two_pow (x : Rat) (a k : Nat) :
    |x - (a : Rat) / 2 ^ k| = |x * 2 ^ k - a| / 2 ^ k := by
  have hpos : (0 : Rat) < 2 ^ k := by positivity
  calc |x - (a : Rat) / 2 ^ k| = |(x * 2 ^ k - a) / 2 ^ k| := by
        rw [sub_div, mul_div_cancel_right₀ _ hpos.ne']
    _ = |x * 2 ^ k - a| / 2 ^ k := by rw [abs_div, abs_of_pos hpos]

/-- Settles O46: on the scaled quotient the rounding is to the nearest integer, and the scale is the one of
the format. -/
theorem roundingPicksNearest : Obligations.RoundingPicksNearest := by
  intro num den hn hd hlt
  obtain ⟨k, heq, hk, hhigh, hlow⟩ := rne64_of_lt hn hd hlt
  have hnear := roundTiesEven_nearest (num := num * 2 ^ k) hd
  have hscaled : (num : Rat) / den * 2 ^ k = (num * 2 ^ k : Nat) / den := by push_cast; ring
  have hpos : (0 : Rat) < 2 ^ k := by positivity
  simp only [heq, Binary64.toRat, abs_sub_div_two_pow, hscaled,
    div_le_div_iff_of_pos_right hpos, div_left_inj' hpos.ne']
  exact ⟨fun j => (hnear j).1, fun j => (hnear j).2, roundTiesEven_le hd hhigh.le, hk,
    hlow.imp_left (le_roundTiesEven hd)⟩

/-- Rounding does not pass an integer bound of the value, as every integer below `2^53` is on the grid. -/
theorem rne64_mant_le {c : Nat} (hd : 0 < den) (hlt : num < den * 2 ^ 53) (h : num ≤ c * den) :
    (rne64 num den).mant ≤ c * 2 ^ (rne64 num den).scale := by
  obtain rfl | hn := Nat.eq_zero_or_pos num
  · exact Nat.zero_le _
  · obtain ⟨k, heq, -⟩ := rne64_of_lt hn hd hlt
    rw [heq]
    refine roundTiesEven_le hd ?_
    calc num * 2 ^ k ≤ c * den * 2 ^ k := Nat.mul_le_mul_right _ h
      _ = c * 2 ^ k * den := by ring

/-- A value is at most the bound its mantissa meets at its scale. -/
theorem Binary64.toRat_le {x : Binary64} {c : Nat} (h : x.mant ≤ c * 2 ^ x.scale) : x.toRat ≤ c := by
  rw [Binary64.toRat, div_le_iff₀ (by positivity)]
  exact_mod_cast h

theorem Binary64.toRat_nonneg (x : Binary64) : 0 ≤ x.toRat := by
  rw [Binary64.toRat]
  positivity

/-- Settles O47: the quotient rounds to at most 1, and a hundred times that to at most 100. -/
theorem floatRateIsAPercentage : Obligations.FloatRateIsAPercentage := by
  intro p m h
  refine ⟨Binary64.toRat_nonneg _, ?_⟩
  by_cases hp : p = 0
  · simp [rate64, hp, Binary64.toRat]
  · have hquot : (rne64 m p).mant ≤ 1 * 2 ^ (rne64 m p).scale :=
      rne64_mant_le (Nat.pos_of_ne_zero hp) (by omega) (by omega)
    have hscale : 0 < 2 ^ (rne64 m p).scale := Nat.two_pow_pos _
    have hrate : (rate64 p m).mant ≤ 100 * 2 ^ (rate64 p m).scale := by
      rw [rate64, if_neg hp]
      exact rne64_mant_le hscale (by omega) (by omega)
    exact_mod_cast Binary64.toRat_le hrate

end Sys2Proof.Machine
end

section
/-! Texts the driver reads: trace lines, whole traces, and lines of mnemonics. -/

namespace Sys2Proof.Machine

/-- The outcome tokens (R164 (3)). -/
theorem outcomeToken_eq_some_iff (g : List Char) (taken : Bool) : outcomeToken g = some taken ↔
    (taken = true ∧ (g = ['t'] ∨ g = ['T'])) ∨ (taken = false ∧ (g = ['n'] ∨ g = ['N'])) := by
  unfold outcomeToken
  split <;> cases taken <;> simp_all

/-! The verdict on a line with ordinary whitespace, by its first field. -/

section lineVerdict

variable {line f : List Char} {rest : List (List Char)}

theorem lineVerdict_of_no_field (hs : line.any openSpace = false) (hf : fields line = []) :
    lineVerdict line = .skipped := by
  simp [lineVerdict, hs, hf]

theorem lineVerdict_of_open (hs : line.any openSpace = false) (hf : fields line = f :: rest)
    (hx : hexField f = .openSpelling) : lineVerdict line = .openHex := by
  simp [lineVerdict, hs, hf, hx]

theorem lineVerdict_of_bad (hs : line.any openSpace = false) (hf : fields line = f :: rest)
    (hx : hexField f = .bad) : lineVerdict line = .skipped := by
  simp [lineVerdict, hs, hf, hx]

theorem lineVerdict_of_value {a : Nat} (hs : line.any openSpace = false)
    (hf : fields line = f :: rest) (hx : hexField f = .value a) :
    lineVerdict line = ((rest.head?.bind outcomeToken).map (LineVerdict.branch a)).getD .skipped := by
  simp only [lineVerdict, hs, hf, hx]
  cases rest.head?.bind outcomeToken <;> rfl

end lineVerdict

/-- Settles O48: only a first field with a value can give a branch, and then the second field decides. -/
theorem traceLineIsABranchExactlyWhenValid : Obligations.TraceLineIsABranchExactlyWhenValid := by
  intro line a taken hs
  simp only [← outcomeToken_eq_some_iff]
  cases hf : fields line with
  | nil => simp [lineVerdict_of_no_field hs hf]
  | cons f rest =>
    cases hx : hexField f with
    | bad => simp [lineVerdict_of_bad hs hf hx, hx]
    | openSpelling => simp [lineVerdict_of_open hs hf hx, hx]
    | value b =>
      rw [lineVerdict_of_value hs hf hx]
      cases rest with
      | nil => simp
      | cons g rest => cases hg : outcomeToken g <;> simp [hg, hx]

/-- Settles O58: the refusal of the line is not hidden by the readable lines before it. -/
theorem openAddressRefusesTrace : Obligations.OpenAddressRefusesTrace := by
  intro k pre post line f rest t hs hf hx hpre
  refine readLines_append_error hpre ?_
  rw [readLines, lineVerdict_of_open hs hf hx]

/-- The number a trace is read from does not matter to its branches. -/
theorem readLines_renumber {k : Nat} {lines : List (List Char)} {t : Trace}
    (h : readLines k lines = .ok t) (k' : Nat) :
    ∃ u, readLines k' lines = .ok u ∧ u.branches = t.branches := by
  induction lines generalizing k k' t with
  | nil =>
    cases h
    exact ⟨_, rfl, rfl⟩
  | cons line lines ih =>
    obtain ⟨v, hv, hline⟩ := readLines_cons.1 h
    obtain ⟨w, hw, hbranches⟩ := ih hv (k' + 1)
    obtain ⟨a, taken, hb, rfl⟩ | ⟨hb, rfl⟩ := hline
    · exact ⟨_, readLines_cons.2 ⟨w, hw, .inl ⟨a, taken, hb, rfl⟩⟩, by rw [hbranches]⟩
    · exact ⟨_, readLines_cons.2 ⟨w, hw, .inr ⟨hb, rfl⟩⟩, hbranches⟩

/-- Settles O49, by induction on the lines before the skipped one: it is only warned about, and the lines
behind it are read under the next number. -/
theorem invalidLinesAreSkipped : Obligations.InvalidLinesAreSkipped := by
  intro k pre post bad t hbad h
  induction pre generalizing k t with
  | nil =>
    obtain ⟨u, hu, hbranches⟩ := readLines_renumber h (k + 1)
    exact ⟨_, readLines_cons.2 ⟨u, hu, .inr ⟨hbad, rfl⟩⟩, hbranches, List.mem_cons_self⟩
  | cons line pre ih =>
    obtain ⟨v, hv, hline⟩ := readLines_cons.1 h
    obtain ⟨u, hu, hbranches, hwarn⟩ := ih (k + 1) v hv
    rw [List.length_cons, ← Nat.add_assoc, Nat.add_right_comm]
    obtain ⟨a, taken, hb, rfl⟩ | ⟨hb, rfl⟩ := hline
    · exact ⟨_, readLines_cons.2 ⟨u, hu, .inl ⟨a, taken, hb, rfl⟩⟩, by rw [hbranches], hwarn⟩
    · exact ⟨_, readLines_cons.2 ⟨u, hu, .inr ⟨hb, rfl⟩⟩, hbranches, List.mem_cons_of_mem k hwarn⟩

/-- Skipped lines alone are a trace without branches. -/
theorem readLines_of_skipped {lines : List (List Char)} (k : Nat)
    (h : ∀ line ∈ lines, lineVerdict line = .skipped) :
    ∃ warnings, readLines k lines = .ok ⟨[], warnings⟩ := by
  induction lines generalizing k with
  | nil => exact ⟨[], rfl⟩
  | cons line lines ih =>
    obtain ⟨warnings, hrest⟩ := ih (k + 1) fun l hl => h l (List.mem_cons_of_mem line hl)
    exact ⟨_, readLines_cons.2 ⟨_, hrest, .inr ⟨h line List.mem_cons_self, rfl⟩⟩⟩

/-- What the assembler spells is well-formed: it reduces an address to its field and takes an index only
inside the table (R82, D3). -/
theorem wellFormed_of_assemble {cfg : Config} {line : List Char} {i : Instr}
    (h : assemble cfg line = some i) : i.wellFormed cfg = true := by
  have haddr (a : Nat) : a % 2 ^ cfg.addrW < 2 ^ cfg.addrW := Nat.mod_lt _ (Nat.two_pow_pos _)
  unfold assemble at h
  split at h
  · split at h <;> cases h
    rfl
  · split at h
    · obtain ⟨a, -, rfl⟩ := Option.map_eq_some_iff.1 h
      exact decide_eq_true (haddr a)
    · cases h
  · split at h
    · split at h
      · cases h
        exact decide_eq_true (haddr _)
      · split at h <;> cases h
        exact decide_eq_true ‹_ ∧ _›.2
    · cases h
  · cases h

/-- Settles O53: what is spelled is well-formed, so its word decodes to it. -/
theorem assembledLinesDecode : Obligations.AssembledLinesDecode := fun _ _ _ h =>
  ⟨wellFormed_of_assemble h, decode_encode (wellFormed_of_assemble h)⟩

end Sys2Proof.Machine
end

section
/-! The command line: which pairs (M, N) give an engine, and which invocations fail before the trace. -/

namespace Sys2Proof.Machine

variable {base : Config} {m n : Int}

/-- The pairs that R160 rejects. -/
def IllegalPair (m n : Int) : Prop := m ≤ 0 ∨ n < 0 ∨ m < n

theorem validateConfig_of_illegal (h : IllegalPair m n) :
    validateConfig base m n = .error .invalid :=
  dif_neg (by rw [IllegalPair] at h; omega)

theorem validateConfig_of_narrow (h : ¬ IllegalPair m n) (ha : (base.addrW : Int) < m + 2) :
    validateConfig base m n = .error .narrowAddress := by
  rw [IllegalPair] at h
  exact (dif_pos (by omega)).trans (dif_neg (by omega))

theorem validateConfig_of_legal (h : ¬ IllegalPair m n) (ha : ¬ (base.addrW : Int) < m + 2) :
    ∃ cfg, validateConfig base m n = .ok cfg ∧ (cfg.m : Int) = m ∧ (cfg.n : Int) = n ∧
      cfg.addrW = base.addrW ∧ cfg.cntW = base.cntW ∧ cfg.exposeSubops = base.exposeSubops := by
  rw [IllegalPair] at h
  refine ⟨_, (dif_pos (by omega)).trans (dif_pos (by omega)), ?_, ?_, rfl, rfl, rfl⟩
  · exact Int.toNat_of_nonneg (by omega)
  · exact Int.toNat_of_nonneg (by omega)

/-- Settles O52: the three cases exclude each other, and each has its own answer. -/
theorem exactlyIllegalConfigurationsAreRejected :
    Obligations.ExactlyIllegalConfigurationsAreRejected := by
  intro base m n
  change (_ ↔ IllegalPair m n) ∧ (_ ↔ ¬ IllegalPair m n ∧ _) ∧ _
  by_cases h : IllegalPair m n
  · simp [validateConfig_of_illegal h, h]
  · by_cases ha : (base.addrW : Int) < m + 2
    · simp [validateConfig_of_narrow h ha, h, ha]
    · obtain ⟨cfg, hcfg, hfields⟩ := validateConfig_of_legal h ha
      simpa [hcfg, h, ha] using hfields

/-! Invocations that fail. -/

variable {exitFail : ExitFail} {kind mArg nArg path : List Char} {file : TraceFile}

theorem driverRun_of_kind_ne (h : kind ≠ "gshare".toList) :
    driverRun exitFail base [kind, mArg, nArg, path] file = .next (failingReport exitFail []) :=
  if_neg h

/-- Without a legal pair of integers for M and N the driver fails before the trace: one argument is a
non-integer, or validation rejects the pair. -/
theorem driverRun_of_no_legal_pair
    (h : ∀ m n, integerArg mArg = some m → integerArg nArg = some n → IllegalPair m n) :
    driverRun exitFail base [kind, mArg, nArg, path] file = .next (failingReport exitFail []) := by
  by_cases hkind : kind = "gshare".toList
  · rw [driverRun, if_pos hkind]
    cases hm : integerArg mArg with
    | none => rfl
    | some m =>
      cases hn : integerArg nArg with
      | none => rfl
      | some n => simp only [validateConfig_of_illegal (h m n hm hn)]
  · exact driverRun_of_kind_ne hkind

/-- Settles O57: four arguments of the kind `gshare` remain, and then each clause leaves no legal pair. -/
theorem invalidInvocationsExitFailing : Obligations.InvalidInvocationsExitFailing := by
  intro exitFail base args file h
  refine ⟨?_, exitFail.nonzero⟩
  match args with
  | [kind, mArg, nArg, path] =>
    simp only [List.head?_cons, List.length_cons, List.getElem?_cons_succ, List.getElem?_cons_zero] at h
    obtain h | h | ⟨k, arg, rfl | rfl, harg, hnone⟩ | ⟨arg, m, harg, hm, hle⟩ |
      ⟨arg, n, harg, hn, hlt⟩ | ⟨arg, arg', m, n, harg, harg', hm, hn, hlt⟩ := h
    · exact absurd rfl h
    · exact driverRun_of_kind_ne (fun hk => h (congrArg some hk))
    · cases harg
      exact driverRun_of_no_legal_pair (by simp [hnone])
    · cases harg
      exact driverRun_of_no_legal_pair (by simp [hnone])
    · cases harg
      exact driverRun_of_no_legal_pair (by rw [hm]; rintro _ _ ⟨⟩ -; exact .inl hle)
    · cases harg
      exact driverRun_of_no_legal_pair (by rw [hn]; rintro _ _ - ⟨⟩; exact .inr (.inl hlt))
    · cases harg
      cases harg'
      exact driverRun_of_no_legal_pair (by rw [hm, hn]; rintro _ _ ⟨⟩ ⟨⟩; exact .inr (.inr hlt))
  | [] | [_] | [_, _] | [_, _, _] | _ :: _ :: _ :: _ :: _ :: _ => rfl

/-- Settles O60: the argument with such a character is a non-integer. -/
theorem lettersInAnArgumentExitFailing : Obligations.LettersInAnArgumentExitFailing := by
  intro exitFail base kind mArg nArg path file c hc hmem
  refine ⟨driverRun_of_no_legal_pair fun m n hm hn => ?_, exitFail.nonzero⟩
  obtain hmem | hmem := hmem
  · simp [integerArg_eq_none hc hmem] at hm
  · simp [integerArg_eq_none hc hmem] at hn

end Sys2Proof.Machine
end

section
/-! The driver over the block: issuing words is executing commands, and the report of a run. -/

namespace Sys2Proof.Machine

variable {s t : State} {cfg : Config}

/-- Issuing the word of a well-formed command to a block that holds nothing executes the command, and the
block holds nothing again. -/
theorem issueAll_encode_cons {i : Instr} (rest : List Input) (hin : s.inputs = [])
    (hi : i.wellFormed s.cfg = true) (he : exec i s = .next t) :
    issueAll (.command (encode s.cfg i) :: rest) s = issueAll rest t :=
  issueAll_cons rest ((step_offer_command hin (decode_encode hi)).trans he)

/-- Settles O56, by induction on the commands: each leaves the block holding nothing else. -/
theorem driverIssuesOneAtATime : Obligations.DriverIssuesOneAtATime := by
  intro commands s hin hwf
  induction commands generalizing s with
  | nil => rfl
  | cons i rest ih =>
    obtain ⟨t, he⟩ := exec_next i s
    obtain ⟨hcfg, hin'⟩ := exec_keeps_ports he
    rw [List.map_cons, issueAll_encode_cons _ hin (hwf i List.mem_cons_self) he, execAll_cons rest he]
    rw [← hcfg] at hwf ⊢
    exact ih t (hin'.trans hin) fun j hj => hwf j (List.mem_cons_of_mem i hj)

/-- The command of a valid trace line (R164, R167). -/
def branchInstr (cfg : Config) (b : Nat × Bool) : Instr :=
  .processBranch (b.1 % 2 ^ cfg.addrW) b.2

theorem branchInstr_wellFormed (cfg : Config) (b : Nat × Bool) :
    (branchInstr cfg b).wellFormed cfg = true :=
  decide_eq_true (Nat.mod_lt _ (Nat.two_pow_pos _))

/-- What the driver offers for the valid lines: the words of their commands. -/
theorem branchInputs_eq (cfg : Config) (branches : List (Nat × Bool)) :
    branchInputs cfg branches =
      (branches.map (branchInstr cfg)).map (fun i => .command (encode cfg i)) := by
  rw [branchInputs, List.map_map]
  rfl

/-- Issuing the branches of a trace is executing their commands. -/
theorem issueAll_branchInputs (hcfg : s.cfg = cfg) (hin : s.inputs = [])
    (branches : List (Nat × Bool)) :
    issueAll (branchInputs cfg branches) s = execAll (branches.map (branchInstr cfg)) s := by
  subst hcfg
  rw [branchInputs_eq]
  refine driverIssuesOneAtATime _ s hin fun i hi => ?_
  obtain ⟨b, -, rfl⟩ := List.mem_map.1 hi
  exact branchInstr_wellFormed s.cfg b

/-- Commands write no parameter and no held item, however many they are. -/
theorem execAll_keeps_ports {commands : List Instr} (h : execAll commands s = .next t) :
    t.cfg = s.cfg ∧ t.inputs = s.inputs := by
  induction commands generalizing s with
  | nil =>
    cases h
    exact ⟨rfl, rfl⟩
  | cons i rest ih =>
    obtain ⟨u, hu, hrest⟩ := execAll_cons_next h
    obtain ⟨hcfg, hin⟩ := exec_keeps_ports hu
    obtain ⟨hcfg', hin'⟩ := ih hrest
    exact ⟨hcfg'.trans hcfg, hin'.trans hin⟩

/-- After the branches of a trace the block has the same parameters and holds nothing. -/
theorem issueAll_branchInputs_keeps_ports {branches : List (Nat × Bool)}
    (h : issueAll (branchInputs cfg branches) (State.resetOf cfg) = .next s) :
    s.cfg = cfg ∧ s.inputs = [] := by
  exact execAll_keeps_ports
    ((issueAll_branchInputs (s := State.resetOf cfg) rfl rfl branches).symm.trans h)

/-- The run of the driver ends with the answer to RATE_QUERY in the state after the branches (R170). -/
theorem issueAll_driverInputs {branches : List (Nat × Bool)}
    (h : issueAll (branchInputs cfg branches) (State.resetOf cfg) = .next s) :
    issueAll (driverInputs cfg branches) (State.resetOf cfg) =
      .next (s.respond (Response.counts s.ovf s.predictions s.mispredictions)) := by
  obtain ⟨rfl, hin⟩ := issueAll_branchInputs_keeps_ports h
  rw [driverInputs, issueAll_append _ h, issueAll_encode_cons [] hin rfl (exec_rateQuery s)]
  rfl

/-- The driver reports on the counts after the branches of a readable trace (R170, R172). -/
theorem driverTrace_of_run {exitFail : ExitFail} {file : TraceFile} {trace : Trace}
    (hio : file.ioError = false) (hread : readTrace file.text = .ok trace)
    (hrun : issueAll (branchInputs cfg trace.branches) (State.resetOf cfg) = .next s) :
    driverTrace exitFail cfg file = .next (reportOn exitFail cfg trace.warnings
      (Response.counts s.ovf s.predictions s.mispredictions)) := by
  simp [driverTrace, hread, hio, issueAll_driverInputs hrun]

/-- Without overflow the report is the result line of the counts (R170). -/
theorem reportOn_counts_of_no_ovf (exitFail : ExitFail) (cfg : Config) (warnings : List Nat)
    (p m : Nat) : reportOn exitFail cfg warnings (Response.counts false p m) =
      ⟨0, some (resultLine cfg p m), warnings⟩ :=
  rfl

/-- With it there is none (R172). -/
theorem reportOn_counts_of_ovf (exitFail : ExitFail) (cfg : Config) (warnings : List Nat)
    (p m : Nat) : reportOn exitFail cfg warnings (Response.counts true p m) =
      failingReport exitFail warnings :=
  rfl

/-- Settles O59: the error is met after the lines are read and before the block is run. -/
theorem fileErrorsKeepOnlyWarnings : Obligations.FileErrorsKeepOnlyWarnings := by
  intro exitFail cfg text t h
  simp [driverTrace, h, failingReport]

/-- Settles O51: the final RATE_QUERY answers the `ovf` of the run. -/
theorem overflowedRunPrintsNothing : Obligations.OverflowedRunPrintsNothing := by
  intro cfg exitFail file t s hio hread hrun ho
  refine ⟨?_, exitFail.nonzero⟩
  rw [driverTrace_of_run hio hread hrun, ho, reportOn_counts_of_ovf, failingReport]

/-- The rate of no branches, as it is printed (R171). -/
theorem twoDecimals_rate64_zero : twoDecimals (rate64 0 0) = ['0', '.', '0', '0'] := by decide

/-- Settles O50: with no branch the block stays as reset, and its counts are 0. -/
theorem emptyTracePrintsZeroRate : Obligations.EmptyTracePrintsZeroRate := by
  intro cfg exitFail text h
  obtain ⟨warnings, hread⟩ := readLines_of_skipped 1 h
  refine ⟨warnings, ?_⟩
  rw [driverTrace_of_run (file := ⟨text, false⟩) (trace := ⟨[], warnings⟩) (s := State.resetOf cfg)
    rfl hread rfl]
  change Host.Outcome.next (reportOn exitFail cfg warnings (Response.counts false 0 0)) = _
  rw [reportOn_counts_of_no_ovf, resultLine, twoDecimals_rate64_zero]

end Sys2Proof.Machine
end

section
/-! The block against the source's engine: one branch keeps them in step, so a whole trace does. -/

namespace Sys2Proof.Machine

variable {s t : State} {e : Source.Engine}

/-- The block and the source's engine hold the same table, history and counts; the block has its
invariant and unbounded counters. -/
structure Simulates (s : State) (e : Source.Engine) : Prop where
  inv : s.Inv
  cntW : s.cfg.cntW = .unbounded
  pht : ∀ i, ((s.phtRead i).toNat : Int) = e.pht i
  gbh : s.gbh = e.gbh
  predictions : s.predictions = e.predictions
  mispredictions : s.mispredictions = e.mispredictions

/-- Fresh, they agree (R34 to R36). -/
theorem simulates_fresh {cfg : Config} (h : cfg.cntW = .unbounded) :
    Simulates (State.resetOf cfg) Source.fresh :=
  ⟨resetSatisfiesInvariant cfg, h, fun i => by rw [State.phtRead_resetOf]; rfl, rfl, rfl, rfl⟩

/-- Reducing an address to its field leaves the bits the index reads, as `ADDR_W >= M + 2` (R167, I9). -/
theorem Config.mod_addrW_div_four_mod (cfg : Config) (a : Nat) :
    a % 2 ^ cfg.addrW / 4 % 2 ^ cfg.m = a / 4 % 2 ^ cfg.m := by
  have hwide := cfg.addrW_wide
  have hsplit : 2 ^ cfg.addrW = 4 * 2 ^ (cfg.addrW - 2) := by
    rw [show 4 = 2 ^ 2 from rfl, ← Nat.pow_add, Nat.add_sub_cancel' (by omega)]
  rw [hsplit, Nat.mod_mul_right_div_self, Nat.mod_mod_of_dvd _ (Nat.pow_dvd_pow 2 (by omega))]

/-- Both compute the same index, the source from the unbounded address. -/
theorem Simulates.index (h : Simulates s e) (a : Nat) :
    s.index (a % 2 ^ s.cfg.addrW) = Source.index s.cfg.m s.cfg.n e a := by
  rw [State.index_eq, Config.mod_addrW_div_four_mod, h.gbh, Source.index]

/-- Both predict alike. -/
theorem Simulates.predictRead (h : Simulates s e) (i : Nat) :
    s.predictRead i = decide (2 ≤ e.pht i) := by
  rw [← h.pht, State.predictRead, predictsTaken]
  exact decide_eq_decide.2 (by omega)

/-- The shifted history in ordinary arithmetic: the incoming bit meets no bit of the shifted register. -/
theorem historyNext_eq_source {n g : Nat} (hg : g < 2 ^ n) (taken : Bool) :
    historyNext n g taken = if n = 0 then 0 else g / 2 + (if taken then 2 ^ (n - 1) else 0) := by
  split
  next hn =>
    subst hn
    exact Nat.lt_one_iff.1 hg
  next hn =>
    have hhalf : g / 2 < 2 ^ (n - 1) := by
      rw [Nat.div_lt_iff_lt_mul two_pos, ← Nat.pow_succ, Nat.succ_eq_add_one, Nat.sub_add_cancel]
      · exact hg
      · omega
    rw [historyNext_of_ne hn, Nat.shiftRight_eq_div_pow, Nat.pow_one, Nat.one_shiftLeft]
    cases taken with
    | false => simp
    | true =>
      have hor := Nat.two_pow_add_eq_or_of_lt hhalf 1
      rw [Nat.mul_one] at hor
      rw [if_pos rfl, Nat.or_comm, ← hor, Nat.add_comm]

/-- One branch keeps the block and the source's engine in step (R130). -/
theorem Simulates.branch (h : Simulates s e) (b : Nat × Bool)
    (he : exec (branchInstr s.cfg b) s = .next t) :
    Simulates t (Source.processBranch s.cfg.m s.cfg.n e b) := by
  have hinv : t.Inv := exec_keeps_inv h.inv (branchInstr_wellFormed s.cfg b) he
  have hw : t.cfg.cntW = .unbounded := by rw [(exec_keeps_ports he).1, h.cntW]
  rw [branchInstr, exec_processBranch, h.index, h.predictRead] at he
  cases he
  refine ⟨hinv, hw, fun j => ?pht, ?gbh, ?predictions, ?mispredictions⟩
  case pht =>
    rw [finishBranch_incPredictions_phtRead]
    by_cases hj : j = Source.index s.cfg.m s.cfg.n e b.1
    · subst hj
      rw [State.phtRead_update_same_toNat h.inv.pht_wf, h.pht]
      exact (if_pos rfl).symm
    · rw [State.phtRead_update_other s hj, h.pht]
      exact (if_neg hj).symm
  case gbh =>
    rw [finishBranch_gbh]
    exact (historyNext_eq_source h.inv.gbh_lt b.2).trans (by rw [h.gbh]; rfl)
  case predictions =>
    rw [finishBranch_predictions, State.incPredictions_predictions, h.cntW,
      incValue_of_hasRoom (hasRoom_unbounded _), h.predictions]
    rfl
  case mispredictions =>
    rw [finishBranch_mispredictions, State.incPredictions_cfg, State.incPredictions_mispredictions,
      h.cntW, incValue_of_hasRoom (hasRoom_unbounded _), h.mispredictions, Source.processBranch]
    simp only [bne_iff_ne, ne_eq, ite_not]

/-- A trace keeps them in step, from any state in which they are. -/
theorem Simulates.execAll {branches : List (Nat × Bool)} (h : Simulates s e)
    (hrun : execAll (branches.map (branchInstr s.cfg)) s = .next t) :
    Simulates t (branches.foldl (Source.processBranch s.cfg.m s.cfg.n) e) := by
  induction branches generalizing s e with
  | nil =>
    cases hrun
    exact h
  | cons b rest ih =>
    obtain ⟨u, hu, hrest⟩ := execAll_cons_next hrun
    have hcfg := (exec_keeps_ports hu).1
    have hbranch := h.branch b hu
    rw [← hcfg] at hbranch hrest
    have hfold := ih hbranch hrest
    rwa [hcfg] at hfold

/-- The driver's branches take the fresh block to a state that simulates the source's run. -/
theorem issueAll_branchInputs_simulates {cfg : Config} (h : cfg.cntW = .unbounded)
    (branches : List (Nat × Bool)) :
    ∃ s, issueAll (branchInputs cfg branches) (State.resetOf cfg) = .next s ∧
      Simulates s (Source.run cfg.m cfg.n branches) := by
  obtain ⟨s, hs⟩ := execAll_next (branches.map (branchInstr cfg)) (State.resetOf cfg)
  exact ⟨s, (issueAll_branchInputs (s := State.resetOf cfg) rfl rfl branches).trans hs,
    (simulates_fresh h).execAll (s := State.resetOf cfg) hs⟩

/-- Settles O55, from the simulation of the whole run. -/
theorem blockStateIsTheSourcesState : Obligations.BlockStateIsTheSourcesState := by
  intro cfg branches h
  obtain ⟨s, hrun, hsim⟩ := issueAll_branchInputs_simulates h branches
  exact ⟨s, hrun, hsim.pht, hsim.gbh, hsim.predictions, hsim.mispredictions,
    hsim.inv.ovf_of_unbounded hsim.cntW⟩

/-- Settles O54: the driver reports on the counts of that run, which are the source's. -/
theorem blockPrintsTheSourcesResult : Obligations.BlockPrintsTheSourcesResult := by
  intro cfg exitFail file t h hio hread
  obtain ⟨s, hrun, -, -, hp, hm, ho⟩ := blockStateIsTheSourcesState cfg t.branches h
  rw [driverTrace_of_run hio hread hrun, ho, reportOn_counts_of_no_ovf, resultLine, hp, hm]

end Sys2Proof.Machine
end
